-- ==== Sys2Proof/Word.lean ====
section
/-! DEFINITION. The word types of the ports and registers (10_state.md R23 to R25). Bit 0 is the least
significant bit of every word (00_scope.md R9). -/

namespace Sys2Proof

/-- A command word: the CMD port, and the width of FSR (10_state.md R23, R25). -/
abbrev Word := BitVec 32

/-- A limb of a limb vector, 32 bits (00_scope.md R14 "limb"). -/
abbrev Limb := BitVec 32

/-- A scalar operand or result word (10_state.md R24, R25). -/
abbrev Dword := BitVec 64

/-- An 8-bit code: the OPC field of a command word, a detail code of FSR, or RFLAGS. -/
abbrev Octet := BitVec 8

end Sys2Proof
end

