-- ==== Sys2Proof/Config.lean ====
section
/-! DEFINITION. The block parameters of 00_scope.md R8, fixed when the hardware is built
(70_reset_and_hazards.md R273). A model takes them as arguments, so they stand in `State` as a field
no command changes, and every statement about all states holds for every choice of them. Their legal
ranges and defaults are in Machine/Parameters.lean. -/

namespace Sys2Proof

/-- The parameters of R8. Together they determine the whole content of the ROM
(20_memory.md R41, R43, R44). -/
structure Params where
  /-- LIMBS: number of 32-bit limbs in a limb vector. -/
  limbs     : Nat
  /-- P5_SIZE_S: entries of the S power-of-5 table. -/
  p5SizeS   : Nat
  /-- P5_SIZE_D: entries of the D power-of-5 table. -/
  p5SizeD   : Nat
  /-- P5I_SIZE_S: entries of the S inverse power-of-5 table. -/
  p5iSizeS  : Nat
  /-- P5I_SIZE_D: entries of the D inverse power-of-5 table. -/
  p5iSizeD  : Nat
  /-- P5_BITS_S: bit count of each S table entry. -/
  p5BitsS   : Nat
  /-- P5I_BITS_S: bit count parameter of the S inverse table. -/
  p5iBitsS  : Nat
  /-- P5_BITS_D: bit count of each D table entry. -/
  p5BitsD   : Nat
  /-- P5I_BITS_D: bit count parameter of the D inverse table. -/
  p5iBitsD  : Nat
  /-- INSTANCES: number of FDB instances sharing the ROM (60_exceptions.md R258). -/
  instances : Nat
  deriving DecidableEq, Repr

end Sys2Proof
end

