-- ==== Sys2Proof/Syntax.lean ====
section
/-! DEFINITION. The commands of the FDB: one constructor of `Instr` for each row of
spec/opcode_table.json (30_encoding.md R64). A command word has no operand field but FMT
(R61, R66), so a format is the only argument a constructor has. -/

namespace Sys2Proof

/-- The two formats (00_scope.md R2): S is binary32 (FMT = 0), D is binary64 (FMT = 1). -/
inductive Format where
  | S
  | D
  deriving DecidableEq, Repr

/-- The commands, in the table's order. The eight format-bearing ones (30_encoding.md R62) carry
their format. -/
inductive Instr where
  | decode (f : Format)
  | normalize (f : Format)
  | lzc32
  | lzc64
  | bitlen32
  | bitlen64
  | mul32x64
  | mul64x64
  | ladd
  | lmuls
  | lmac10
  | lcmp
  | lshl
  | pow5rd (f : Format)
  | pow5invrd (f : Format)
  | mulpow5 (f : Format)
  | mulpow5inv (f : Format)
  | pow5bits
  | log10p2
  | log10p5
  | pow5factor
  | multpow5
  | multpow2
  | pack (f : Format)
  | roundpack (f : Format)
  | rdfsr
  deriving DecidableEq, Repr

end Sys2Proof
end

