-- ==== Sys2Proof/WellFormed.lean ====
section
/-! DEFINITION. Well-formedness of a command word, check by check, from 30_encoding.md R61 to R65. It
is written apart from the decoder's table (Decode.lean), so that "the decoder accepts exactly the
well-formed words" says something. An `Instr` term itself has no ill-formed value: its constructors
carry a format exactly where R62 allows one. -/

namespace Sys2Proof

/-- The OPC values R64 assigns, family by family. Every other value is unassigned. -/
def assignedOpcodes : List Octet :=
  [0x01, 0x02] ++ [0x10, 0x11, 0x12, 0x13] ++ [0x20, 0x21, 0x22, 0x23, 0x24, 0x25, 0x26]
    ++ [0x30, 0x31, 0x32, 0x33, 0x34, 0x35, 0x36, 0x37, 0x38, 0x39] ++ [0x40, 0x41] ++ [0x50]

/-- The OPC values of the operations for which FMT may be 1 (R62): DECODE, NORMALIZE, POW5RD,
POW5INVRD, MULPOW5, MULPOW5INV, PACK, ROUNDPACK. -/
def formatBearingOpcodes : List Octet :=
  [0x01, 0x02, 0x30, 0x31, 0x32, 0x33, 0x40, 0x41]

/-- R64, R65: the OPC field of `w`, bits [7:0], is assigned. -/
def opcodeAssigned (w : Word) : Bool :=
  assignedOpcodes.contains (w.extractLsb' 0 8)

/-- R63: the RSV field of `w`, bits [31:9], is 0. -/
def reservedClear (w : Word) : Bool :=
  w.extractLsb' 9 23 == 0#23

/-- R62: FMT, bit 8, is 1 only on a format-bearing operation. -/
def formatAllowed (w : Word) : Bool :=
  !w.getLsbD 8 || formatBearingOpcodes.contains (w.extractLsb' 0 8)

/-- A command word that some row of R64 matches. -/
def wellFormedWord (w : Word) : Bool :=
  opcodeAssigned w && reservedClear w && formatAllowed w

end Sys2Proof
end

