-- ==== Sys2Proof/Decode.lean ====
section
/-! DEFINITION. The command decoder (30_encoding.md R60 to R65, with the order of the checks of
60_exceptions.md R245 steps 3 to 5), the encoder, and the assembler's mnemonics (R68). A command word
arrives whole on the CMD port (20_memory.md R46, R55), so the decoder reads a 32-bit word and there is
no byte order and no instruction length. -/

namespace Sys2Proof

/-- Why a command word names no legal command (60_exceptions.md R240). -/
inductive IllegalCause where
  /-- CMD[7:0] is no OPC of R64. -/
  | unassignedOpcode
  /-- CMD[31:9] is not 0. -/
  | reservedBits
  /-- CMD[8] = 1 and the operation is not format-bearing. -/
  | fmtNotAllowed
  deriving DecidableEq, Repr

/-- A row of the opcode map: a format-bearing operation (R64 column FMT "S/D") or a plain one
(column FMT "0"). -/
inductive Row where
  | bearing (mk : Format → Instr)
  | plain (i : Instr)

/-- The opcode map of R64: OPC, mnemonic, operation. -/
def opcodeMap : List (Octet × String × Row) :=
  [ (0x01, "DECODE", .bearing .decode),
    (0x02, "NORMALIZE", .bearing .normalize),
    (0x10, "LZC32", .plain .lzc32),
    (0x11, "LZC64", .plain .lzc64),
    (0x12, "BITLEN32", .plain .bitlen32),
    (0x13, "BITLEN64", .plain .bitlen64),
    (0x20, "MUL32X64", .plain .mul32x64),
    (0x21, "MUL64X64", .plain .mul64x64),
    (0x22, "LADD", .plain .ladd),
    (0x23, "LMULS", .plain .lmuls),
    (0x24, "LMAC10", .plain .lmac10),
    (0x25, "LCMP", .plain .lcmp),
    (0x26, "LSHL", .plain .lshl) ] ++
  [ (0x30, "POW5RD", .bearing .pow5rd),
    (0x31, "POW5INVRD", .bearing .pow5invrd),
    (0x32, "MULPOW5", .bearing .mulpow5),
    (0x33, "MULPOW5INV", .bearing .mulpow5inv),
    (0x34, "POW5BITS", .plain .pow5bits),
    (0x35, "LOG10P2", .plain .log10p2),
    (0x36, "LOG10P5", .plain .log10p5),
    (0x37, "POW5FACTOR", .plain .pow5factor),
    (0x38, "MULTPOW5", .plain .multpow5),
    (0x39, "MULTPOW2", .plain .multpow2),
    (0x40, "PACK", .bearing .pack),
    (0x41, "ROUNDPACK", .bearing .roundpack),
    (0x50, "RDFSR", .plain .rdfsr) ]

/-- The OPC field, bits [7:0] (R61). -/
def opcField (w : Word) : Octet := w.extractLsb' 0 8

/-- The FMT bit, bit 8 (R61). -/
def fmtField (w : Word) : Bool := w.getLsbD 8

/-- The RSV field, bits [31:9] (R61). -/
def rsvField (w : Word) : BitVec 23 := w.extractLsb' 9 23

/-- The format FMT selects: 0 = S, 1 = D (R62). -/
def formatOfBit : Bool → Format
  | false => .S
  | true  => .D

/-- FMT of a format (R62). -/
def bitOfFormat : Format → Bool
  | .S => false
  | .D => true

/-- The row whose OPC equals `opc` (R64). -/
def rowOf (opc : Octet) : Option Row :=
  (opcodeMap.lookup opc).map Prod.snd

/-- Decode a command word. The checks come in the order of 60_exceptions.md R245: unassigned opcode,
reserved bits, format not allowed. -/
def decode (w : Word) : Except IllegalCause Instr :=
  match rowOf (opcField w) with
  | none => .error .unassignedOpcode
  | some row =>
    if rsvField w ≠ 0 then .error .reservedBits
    else
      match row, fmtField w with
      | .bearing mk, b => .ok (mk (formatOfBit b))
      | .plain i, false => .ok i
      | .plain _, true => .error .fmtNotAllowed

/-- The OPC of an operation (R64). -/
def opcodeOf : Instr → Octet
  | .decode _ => 0x01
  | .normalize _ => 0x02
  | .lzc32 => 0x10
  | .lzc64 => 0x11
  | .bitlen32 => 0x12
  | .bitlen64 => 0x13
  | .mul32x64 => 0x20
  | .mul64x64 => 0x21
  | .ladd => 0x22
  | .lmuls => 0x23
  | .lmac10 => 0x24
  | .lcmp => 0x25
  | .lshl => 0x26
  | .pow5rd _ => 0x30
  | .pow5invrd _ => 0x31
  | .mulpow5 _ => 0x32
  | .mulpow5inv _ => 0x33
  | .pow5bits => 0x34
  | .log10p2 => 0x35
  | .log10p5 => 0x36
  | .pow5factor => 0x37
  | .multpow5 => 0x38
  | .multpow2 => 0x39
  | .pack _ => 0x40
  | .roundpack _ => 0x41
  | .rdfsr => 0x50

/-- The FMT bit of an operation: its format, or 0 (R62). -/
def fmtBitOf : Instr → Bool
  | .decode f => bitOfFormat f
  | .normalize f => bitOfFormat f
  | .pow5rd f => bitOfFormat f
  | .pow5invrd f => bitOfFormat f
  | .mulpow5 f => bitOfFormat f
  | .mulpow5inv f => bitOfFormat f
  | .pack f => bitOfFormat f
  | .roundpack f => bitOfFormat f
  | .lzc32 => false
  | .lzc64 => false
  | .bitlen32 => false
  | .bitlen64 => false
  | .mul32x64 => false
  | .mul64x64 => false
  | .ladd => false
  | .lmuls => false
  | .lmac10 => false
  | .lcmp => false
  | .lshl => false
  | .pow5bits => false
  | .log10p2 => false
  | .log10p5 => false
  | .pow5factor => false
  | .multpow5 => false
  | .multpow2 => false
  | .rdfsr => false

/-- The command word of an operation, `(FMT << 8) | OPC`, its only form (R64). -/
def encode (i : Instr) : Word :=
  (BitVec.ofBool (fmtBitOf i)).setWidth 32 <<< 8 ||| (opcodeOf i).setWidth 32

/-- The word RDFSR executes from while halted: exactly 0x00000050 (45_system.md R220). -/
def rdfsrWord : Word := 0x00000050

/-- The operation an assembler mnemonic and suffix name: `.S` or `.D` is required on a
format-bearing operation and forbidden on any other (R68). -/
def instrOfMnemonic (name : String) (suffix : Option Format) : Option Instr :=
  match (opcodeMap.map Prod.snd).lookup name, suffix with
  | some (.bearing mk), some f => some (mk f)
  | some (.plain i), none => some i
  | _, _ => none

/-- What the decoder reads from the bits `w` of an `nbits`-bit opcode-table row; a command word has
32 bits (R60), and bits above `nbits` are 0. -/
def decodeTableWord (nbits w : Nat) : Option Instr :=
  let v := w % 2 ^ nbits
  if v < 2 ^ 32 then
    match decode (BitVec.ofNat 32 v) with
    | .ok i => some i
    | .error _ => none
  else none

end Sys2Proof
end

