-- ==== Sys2Proof/Machine/Parameters.lean ====
section
/-! DEFINITION. The defaults and legal ranges of the block parameters (00_scope.md R8), the
sizes that follow from them, and the constants of the two formats (R6). -/

namespace Sys2Proof

/-- The defaults of R8. LIMBS is 4, the value of every vector of 95_test_vectors.md, and INSTANCES is
1: R8 leaves both OPEN. DESIGN CHOICE, unsafe only for a statement about `State.reset` itself (log 4).
The sizes and bit counts other than P5_SIZE_S are the spec's defaults from general knowledge
(93_implementation_defined.md G5, G6). -/
def Params.default : Params where
  limbs := 4
  p5SizeS := 47
  p5SizeD := 326
  p5iSizeS := 31
  p5iSizeD := 291
  p5BitsS := 61
  p5iBitsS := 59
  p5BitsD := 121
  p5iBitsD := 122
  instances := 1

/-- The legal values of R8. A model refuses any other (93_implementation_defined.md I3). -/
def Params.legal (p : Params) : Bool :=
  decide (2 ≤ p.limbs) && decide (p.p5SizeS = 47) && decide (1 ≤ p.p5SizeD)
    && decide (1 ≤ p.p5iSizeS) && decide (1 ≤ p.p5iSizeD)
    && decide (1 ≤ p.p5BitsS ∧ p.p5BitsS ≤ 128) && decide (1 ≤ p.p5iBitsS ∧ p.p5iBitsS ≤ 127)
    && decide (1 ≤ p.p5BitsD ∧ p.p5BitsD ≤ 128) && decide (1 ≤ p.p5iBitsD ∧ p.p5iBitsD ≤ 127)
    && decide (1 ≤ p.instances)

/-- P5_SIZE of a format (R8). -/
def Params.p5Size (p : Params) : Format → Nat
  | .S => p.p5SizeS
  | .D => p.p5SizeD

/-- P5I_SIZE of a format (R8). -/
def Params.p5iSize (p : Params) : Format → Nat
  | .S => p.p5iSizeS
  | .D => p.p5iSizeD

/-- P5_BITS of a format (R8). -/
def Params.p5Bits (p : Params) : Format → Nat
  | .S => p.p5BitsS
  | .D => p.p5BitsD

/-- P5I_BITS of a format (R8). -/
def Params.p5iBits (p : Params) : Format → Nat
  | .S => p.p5iBitsS
  | .D => p.p5iBitsD

/-- W = 32 × LIMBS, the width in bits of a limb vector (42_multilimb.md). -/
def Params.vectorBits (p : Params) : Nat := 32 * p.limbs

/-- T, the width of a pattern (R6). -/
def Format.totalBits : Format → Nat
  | .S => 32
  | .D => 64

/-- E, the width of the exponent field (R6). For D it is the spec's own from general knowledge
(93_implementation_defined.md G1). -/
def Format.exponentBits : Format → Nat
  | .S => 8
  | .D => 11

/-- M, the width of the stored fraction field (R6; for D as `exponentBits`). -/
def Format.mantissaBits : Format → Nat
  | .S => 23
  | .D => 52

/-- BIAS = 2^(E-1) - 1 (R6). -/
def Format.bias (f : Format) : Nat := 2 ^ (f.exponentBits - 1) - 1

/-- EMAXF = 2^E - 1, the all-ones exponent field (R6). -/
def Format.emaxf (f : Format) : Nat := 2 ^ f.exponentBits - 1

/-- EMIN = 1 - BIAS, the exponent of the smallest normal (R6). -/
def Format.emin (f : Format) : Int := 1 - (f.bias : Int)

/-- ETINY = 1 - BIAS - M, the exponent of the subnormal unit (R6). -/
def Format.etiny (f : Format) : Int := 1 - (f.bias : Int) - (f.mantissaBits : Int)

end Sys2Proof
end

