-- ==== Sys2Proof/Machine/State.lean ====
section
/-! DEFINITION. The state of one FDB instance as plain data, its ports, its reset, and the reasons a
step can stop. The instance's one register is FSR (10_state.md R23, R29). The ROM is determined by
`params` (20_memory.md R43, R44, R45; log 5). The ports are not state in the spec (R24, R25) and stand
here so that a step is a function of one value (log 1). -/

namespace Sys2Proof.Machine

/-- The input ports of one command (10_state.md R25). -/
structure Ports where
  /-- CMD, the command word. -/
  cmd : Word
  /-- OPA. -/
  opa : Dword
  /-- OPB. -/
  opb : Dword
  /-- OPC, the third operand word (not the OPC field of CMD). -/
  opc : Dword
  /-- LX, limb 0 first (20_memory.md R46). -/
  lx  : List Limb
  /-- LY, limb 0 first. -/
  ly  : List Limb
  deriving DecidableEq, Repr

/-- What the outside can do to an instance: present a command or assert reset. No other event
changes it (60_exceptions.md R247). -/
inductive Input where
  /-- The requester presents a command (R25). -/
  | command (p : Ports)
  /-- The system asserts reset for this instance (70_reset_and_hazards.md R270). -/
  | reset
  deriving DecidableEq, Repr

/-- STATUS of a response (10_state.md R24); its 2-bit code is `Status.code`. -/
inductive Status where
  | ok
  | illegal
  | precondition
  | halted
  deriving DecidableEq, Repr

/-- The response ports of one command (10_state.md R24). -/
structure Response where
  status : Status
  res0   : Dword
  res1   : Dword
  res2   : Dword
  /-- RFLAGS (R26). -/
  rflags : Octet
  /-- LR, limb 0 first, LIMBS limbs. -/
  lr     : List Limb
  deriving DecidableEq, Repr

/-- One FDB instance. -/
structure State where
  /-- The block parameters, which also fix the ROM (00_scope.md R8, 20_memory.md R43 to R45). -/
  params : Params
  /-- FSR, the fault status register (10_state.md R23). -/
  fsr    : Word
  /-- The sample of the input ports of the command being executed (20_memory.md R49). -/
  ports  : Ports
  /-- The response ports: the response of the last command, or no value yet (R24; log 2). -/
  resp   : Option Response
  /-- The model's own field: what the outside does next, in order (log 1). -/
  inputs : List Input
  deriving DecidableEq, Repr

/-- The response ports driven. -/
def State.setResp (s : State) (r : Response) : State := { s with resp := some r }

/-- FSR replaced. -/
def State.setFsr (s : State) (w : Word) : State := { s with fsr := w }

/-- The command on the ports accepted: its inputs sampled, the rest of the inputs still to come
(20_memory.md R49, 70_reset_and_hazards.md R275). -/
def State.accept (s : State) (p : Ports) (rest : List Input) : State :=
  { s with ports := p, inputs := rest }

/-- Ports with every input bit 0. -/
def Ports.zero (limbs : Nat) : Ports :=
  { cmd := 0, opa := 0, opb := 0, opc := 0,
    lx := List.replicate limbs 0, ly := List.replicate limbs 0 }

/-- The instance right after reset, with the given block parameters: FSR = 0 (R29,
70_reset_and_hazards.md R270), no response yet (R24; log 2), nothing presented. The input ports hold 0
and nothing reads them before a command replaces them: DESIGN CHOICE (log 3). -/
def State.resetWith (p : Params) : State :=
  { params := p, fsr := 0, ports := Ports.zero p.limbs, resp := none, inputs := [] }

/-- The instance right after reset, with the default block parameters (00_scope.md R8; log 4). -/
def State.reset : State := State.resetWith Params.default

/-- Reasons a step stops with a fault: none. Every fault of the spec is a response with a latched FSR,
a next state (60_exceptions.md R243), and every command completes (70_reset_and_hazards.md R277). So
no constructor is needed, and that no step faults holds by the type (log 16). -/
inductive Fault where
  deriving DecidableEq, Repr

/-- Reasons a step has no meaning. -/
inductive Refusal where
  /-- Raised by `exec` for an instruction that has no meaning yet; no arm raises it now. Safe. -/
  | notModelled (mnemonic : String)
  /-- Raised by `step` when the block parameters are outside their legal ranges, which a model must
  refuse (93_implementation_defined.md I3, 00_scope.md R8). Safe. -/
  | illegalParameters
  /-- Raised by `Instances.stepAt` when no instance has the number asked for
  (60_exceptions.md R258: a block has INSTANCES of them). Safe. -/
  | noSuchInstance (k : Nat)
  deriving DecidableEq, Repr

end Sys2Proof.Machine
end

