-- ==== Sys2Proof/Machine/Arith.lean ====
section
/-! DEFINITION. The exact integer notation of 00_scope.md R10 and R11, and the limb vectors of
20_memory.md R46. -/

namespace Sys2Proof.Machine

/-- `bitlen(v)`: the least n with v < 2^n, so bitlen(0) = 0 (R10). -/
def bitlen (v : Nat) : Nat := if v = 0 then 0 else Nat.log2 v + 1

/-- `zext_64(v)` (R10). -/
def zext64 (v : Nat) : Dword := BitVec.ofNat 64 v

/-- `sext_64(v)`: two's complement (R10). -/
def sext64 (v : Int) : Dword := BitVec.ofInt 64 v

/-- `signed64(w)`: a port word read as two's complement (R10). -/
def signed64 (w : Dword) : Int := w.toInt

/-- A truth value as an integer result. -/
def bit (b : Bool) : Nat := if b then 1 else 0

/-- `val(LX)` over `n` limbs: the sum of LX[i] × 2^(32 i) (R11, 20_memory.md R46). A limb the list
lacks counts 0 and one beyond the `n` limbs is not read (log 10). -/
def limbVal : Nat → List Limb → Nat
  | 0, _ => 0
  | _ + 1, [] => 0
  | n + 1, x :: xs => x.toNat + 2 ^ 32 * limbVal n xs

/-- `LR <- v`: the `n` limbs of v mod 2^(32 n), limb 0 first (R11). -/
def toLimbs : Nat → Nat → List Limb
  | 0, _ => []
  | n + 1, v => BitVec.ofNat 32 v :: toLimbs n (v / 2 ^ 32)

end Sys2Proof.Machine
end

