-- ==== Sys2Proof/Machine/Operands.lean ====
section
/-! DEFINITION. Operand assembly: which port bits an operation reads and how it reads them
(30_encoding.md R66). Bits outside these ranges are not read by any meaning. -/

namespace Sys2Proof.Machine

/-- OPA[31:0], unsigned: x of LZC32 and BITLEN32, a of MUL32X64, k of LMULS. -/
def opaU32 (p : Ports) : Nat := (p.opa.extractLsb' 0 32).toNat

/-- OPA[63:0], unsigned. -/
def opaU64 (p : Ports) : Nat := p.opa.toNat

/-- OPB[63:0], unsigned. -/
def opbU64 (p : Ports) : Nat := p.opb.toNat

/-- OPC[63:0], unsigned. -/
def opcU64 (p : Ports) : Nat := p.opc.toNat

/-- e = signed64(OPA) of POW5BITS, LOG10P2 and LOG10P5. -/
def opaS64 (p : Ports) : Int := signed64 p.opa

/-- exp = signed64(OPB) of ROUNDPACK. -/
def opbS64 (p : Ports) : Int := signed64 p.opb

/-- m of MULPOW5.f and MULPOW5INV.f: OPA[31:0] for S, OPA[63:0] for D. -/
def multiplicand : Format → Ports → Nat
  | .S, p => opaU32 p
  | .D, p => opaU64 p

/-- s = OPA[0] of PACK. -/
def packSign (p : Ports) : Bool := p.opa.getLsbD 0

/-- sticky = OPC[0] of ROUNDPACK. -/
def stickyBit (p : Ports) : Bool := p.opc.getLsbD 0

/-- sign = OPC[1] of ROUNDPACK. -/
def roundSign (p : Ports) : Bool := p.opc.getLsbD 1

/-- X = val(LX). -/
def opX (s : State) : Nat := limbVal s.params.limbs s.ports.lx

/-- Y = val(LY). -/
def opY (s : State) : Nat := limbVal s.params.limbs s.ports.ly

/-- The three fields of a pattern (40_decoder.md R100). -/
structure Fields where
  sign : Bool
  be   : Nat
  fr   : Nat
  deriving DecidableEq, Repr

/-- The fields of the pattern w = OPA[T-1:0]: s = w[T-1], be = w[T-2:M], fr = w[M-1:0]
(40_decoder.md R100). OPA[63:T] is not read. -/
def patternFields (f : Format) (p : Ports) : Fields :=
  { sign := p.opa.getLsbD (f.totalBits - 1)
    be := (p.opa.extractLsb' f.mantissaBits f.exponentBits).toNat
    fr := (p.opa.extractLsb' 0 f.mantissaBits).toNat }

end Sys2Proof.Machine
end

