-- ==== Sys2Proof/Machine/Flags.lean ====
section
/-! DEFINITION. RFLAGS (10_state.md R26): the bits of each command, by the rule its row cites. A bit no
rule drives is 0 (30_encoding.md R67). -/

namespace Sys2Proof.Machine

/-- RFLAGS[k] <- b, the other bits 0. -/
def flag (k : Nat) (b : Bool) : Octet := (BitVec.ofBool b).setWidth 8 <<< k

/-- The class of a pattern (00_scope.md R12, 40_decoder.md R100). -/
inductive FpClass where
  | zero
  | subnormal
  | normal
  | infinite
  | nan
  deriving DecidableEq, Repr

/-- The class of a pattern with these fields (R12; NORMAL is 0 < be < EMAXF, R100). -/
def classOf (f : Format) (w : Fields) : FpClass :=
  if w.be = 0 then (if w.fr = 0 then .zero else .subnormal)
  else if w.be = f.emaxf then (if w.fr = 0 then .infinite else .nan)
  else .normal

/-- DECODE: ZERO, SUBNORMAL, NORMAL, INFINITE, NAN in bits 0 to 4 (40_decoder.md R100). -/
def decodeFlags (c : FpClass) : Octet :=
  flag 0 (c = .zero) ||| flag 1 (c = .subnormal) ||| flag 2 (c = .normal)
    ||| flag 3 (c = .infinite) ||| flag 4 (c = .nan)

/-- NORMALIZE: ZERO, SUBNORMAL, NORMAL in bits 0 to 2, POW2 in bit 5 (40_decoder.md R101). -/
def normalizeFlags (c : FpClass) (w : Fields) : Octet :=
  flag 0 (c = .zero) ||| flag 1 (c = .subnormal) ||| flag 2 (c = .normal)
    ||| flag 5 (w.be ≠ 0 ∧ w.fr = 0)

/-- CARRY of LADD, OVF of LSHL: the exact result `v` does not fit in `w` bits
(42_multilimb.md R142, R146). -/
def overflowFlag (w v : Nat) : Octet := flag 0 (2 ^ w ≤ v)

/-- OVF of LMULS and LMAC10: the carry-out limb is not 0 (42_multilimb.md R143, R144). -/
def carryOutFlag (carry : Nat) : Octet := flag 0 (carry ≠ 0)

/-- LCMP: LT, EQ, GT in bits 0 to 2 (42_multilimb.md R145). -/
def compareFlags (x y : Nat) : Octet :=
  flag 0 (x < y) ||| flag 1 (x = y) ||| flag 2 (y < x)

/-- ROUNDPACK: INEXACT, OVERFLOW, UNDERFLOW in bits 0 to 2 (44_encoder.md R201). -/
def roundFlags (inexact overflow underflow : Bool) : Octet :=
  flag 0 inexact ||| flag 1 overflow ||| flag 2 underflow

end Sys2Proof.Machine
end

