-- ==== Sys2Proof/Machine/Ops.lean ====
section
/-! DEFINITION. The operations every meaning is built from: FSR's fields (10_state.md R23), driving a
response (30_encoding.md R67), taking a fault (60_exceptions.md R240 to R244), the HALTED answer (R242,
R245) and reset, the only return from a fault (R249, 70_reset_and_hazards.md R270). -/

namespace Sys2Proof.Machine

/-- What a meaning answers. -/
abbrev Answer := Host.Outcome State Fault Refusal

/-! ### FSR -/

/-- FSR.HALT, bit 0 (R23). -/
def fsrHalt (w : Word) : Bool := w.getLsbD 0

/-- FSR.CAUSE, bits 2:1 (R23). -/
def fsrCause (w : Word) : BitVec 2 := w.extractLsb' 1 2

/-- FSR.OPC, bits 15:8 (R23). -/
def fsrOpc (w : Word) : Octet := w.extractLsb' 8 8

/-- FSR.DETAIL, bits 23:16 (R23). -/
def fsrDetail (w : Word) : Octet := w.extractLsb' 16 8

/-- The instance has faulted and executes no command but RDFSR (R23, 60_exceptions.md R243). -/
def State.halted (s : State) : Bool := fsrHalt s.fsr

/-- The FSR word of a fault: 1 | (cause << 1) | (CMD[7:0] << 8) | (d << 16) (60_exceptions.md R243). -/
def faultWord (cause : BitVec 2) (opc detail : Octet) : Word :=
  1#32 ||| cause.setWidth 32 <<< 1 ||| opc.setWidth 32 <<< 8 ||| detail.setWidth 32 <<< 16

/-! ### Responses -/

/-- The code of STATUS: 0 OK, 1 ILLEGAL, 2 PRECONDITION, 3 HALTED (10_state.md R24). -/
def Status.code : Status → BitVec 2
  | .ok => 0
  | .illegal => 1
  | .precondition => 2
  | .halted => 3

/-- What a command's rule drives. A port the rule does not drive is 0 (30_encoding.md R67). LR is
given by its exact integer value. -/
structure Result where
  res0   : Dword := 0
  res1   : Dword := 0
  res2   : Dword := 0
  rflags : Octet := 0
  lr     : Nat := 0
  deriving DecidableEq, Repr

/-- The response of a command that executes: STATUS = 0 and its rule's outputs, LR keeping its value
mod 2^(32 LIMBS) (00_scope.md R11, 60_exceptions.md R245 step 7). -/
def okResponse (limbs : Nat) (r : Result) : Response :=
  { status := .ok, res0 := r.res0, res1 := r.res1, res2 := r.res2, rflags := r.rflags,
    lr := toLimbs limbs r.lr }

/-- The response with STATUS ≠ 0: every other output zero (30_encoding.md R67, R244). -/
def zeroResponse (limbs : Nat) (st : Status) : Response :=
  { status := st, res0 := 0, res1 := 0, res2 := 0, rflags := 0, lr := List.replicate limbs 0 }

/-- The command executes: it drives its response and leaves FSR (70_reset_and_hazards.md R275). -/
def complete (s : State) (r : Result) : Answer :=
  .next (s.setResp (okResponse s.params.limbs r))

/-! ### Faults -/

/-- The preconditions a legal command's operands can break (60_exceptions.md R241). -/
inductive PreconditionCause where
  | nonfinite
  | tableIndex
  | resultRange
  | digitRange
  | shiftRange
  | argRange
  | zeroArg
  | fieldRange
  deriving DecidableEq, Repr

/-- A fault: `IllegalCommand(d)` or `PreconditionViolation(d)` (R240, R241). -/
inductive Trap where
  | illegal (c : IllegalCause)
  | precondition (c : PreconditionCause)
  deriving DecidableEq, Repr

/-- STATUS of a fault, which is also its CAUSE: 1 ILLEGAL, 2 PRECONDITION (R240, R241, R243). -/
def Trap.status : Trap → Status
  | .illegal _ => .illegal
  | .precondition _ => .precondition

/-- The detail codes of R240 and R241. -/
def Trap.detail : Trap → Octet
  | .illegal .unassignedOpcode => 1
  | .illegal .reservedBits => 2
  | .illegal .fmtNotAllowed => 3
  | .precondition .nonfinite => 1
  | .precondition .tableIndex => 2
  | .precondition .resultRange => 3
  | .precondition .digitRange => 4
  | .precondition .shiftRange => 5
  | .precondition .argRange => 6
  | .precondition .zeroArg => 7
  | .precondition .fieldRange => 8

/-- Taking a fault (R243, R244): FSR records HALT, the cause, CMD[7:0] and the detail; STATUS is the
cause and every other output is zero. -/
def raise (t : Trap) (s : State) : Answer :=
  .next ((s.setFsr (faultWord t.status.code (opcField s.ports.cmd) t.detail)).setResp
    (zeroResponse s.params.limbs t.status))

/-- `raise PreconditionViolation(d)` (00_scope.md R11). -/
def raisePrecondition (c : PreconditionCause) (s : State) : Answer := raise (.precondition c) s

/-- The HALTED answer: STATUS = 3, every other output zero, FSR unchanged (R242). -/
def answerHalted (s : State) : Answer :=
  .next (s.setResp (zeroResponse s.params.limbs .halted))

/-- The first check of R245: a halted instance answers HALTED, and the command does not execute.
RDFSR alone goes without it (R245 step 2; log 8). -/
def whenRunning (s : State) (body : Answer) : Answer :=
  if s.halted then answerHalted s else body

/-- A command word that decodes to nothing (R240, R245 steps 1 and 3 to 5). -/
def illegalCommand (c : IllegalCause) (s : State) : Answer :=
  whenRunning s (raise (.illegal c) s)

/-- Reset of the instance, the only return from a fault (R249, 70_reset_and_hazards.md R270, R271):
FSR is 0, the ROM and the parameters stay, and the response ports hold no value until the next
response (log 12). -/
def resetInstance (s : State) (rest : List Input) : State :=
  { s with fsr := 0, resp := none, inputs := rest }

end Sys2Proof.Machine
end

