-- ==== Sys2Proof/Machine/BitWidth.lean ====
section
/-! DEFINITION. The bit-width primitives (41_bitwidth.md). -/

namespace Sys2Proof.Machine

/-- LZC32 (R120): 32 - bitlen(OPA[31:0]). -/
def execLzc32 (s : State) : Answer :=
  whenRunning s <| complete s { res0 := zext64 (32 - bitlen (opaU32 s.ports)) }

/-- LZC64 (R121): 64 - bitlen(OPA). -/
def execLzc64 (s : State) : Answer :=
  whenRunning s <| complete s { res0 := zext64 (64 - bitlen (opaU64 s.ports)) }

/-- BITLEN32 (R122): bitlen(OPA[31:0]). -/
def execBitlen32 (s : State) : Answer :=
  whenRunning s <| complete s { res0 := zext64 (bitlen (opaU32 s.ports)) }

/-- BITLEN64 (R123): bitlen(OPA). -/
def execBitlen64 (s : State) : Answer :=
  whenRunning s <| complete s { res0 := zext64 (bitlen (opaU64 s.ports)) }

end Sys2Proof.Machine
end

