-- ==== Sys2Proof/Machine/Decoder.lean ====
section
/-! DEFINITION. The format decoder: DECODE and NORMALIZE (40_decoder.md). -/

namespace Sys2Proof.Machine

/-- m2 of a finite pattern: the implicit leading bit inserted on a normal, not on a subnormal
(R101). -/
def significand (f : Format) (w : Fields) : Nat :=
  if w.be = 0 then w.fr else w.fr + 2 ^ f.mantissaBits

/-- e2 of a finite pattern: ETINY for a zero or subnormal, be - BIAS - M for a normal (R101). -/
def exponent2 (f : Format) (w : Fields) : Int :=
  if w.be = 0 then f.etiny else (w.be : Int) - f.bias - f.mantissaBits

/-- DECODE.f (R100): split a pattern into its fields and classify it. -/
def execDecode (f : Format) (s : State) : Answer :=
  let w := patternFields f s.ports
  whenRunning s <| complete s
    { res0 := zext64 (bit w.sign), res1 := zext64 w.be, res2 := zext64 w.fr,
      rflags := decodeFlags (classOf f w) }

/-- NORMALIZE.f (R101): the exact pair (m2, e2) of a finite pattern; NONFINITE on an infinity or a
NaN. -/
def execNormalize (f : Format) (s : State) : Answer :=
  let w := patternFields f s.ports
  whenRunning s <|
    if w.be = f.emaxf then raisePrecondition .nonfinite s
    else complete s
      { res0 := zext64 (significand f w), res1 := sext64 (exponent2 f w), res2 := zext64 (bit w.sign),
        rflags := normalizeFlags (classOf f w) w }

end Sys2Proof.Machine
end

