-- ==== Sys2Proof/Machine/Encoder.lean ====
section
/-! DEFINITION. The bit-pattern encoder: PACK and ROUNDPACK (44_encoder.md). ROUNDPACK follows the
procedure of R203 step by step, on exact integers. -/

namespace Sys2Proof.Machine

/-- The pattern s × 2^(T-1) + be × 2^M + fr, zero-extended (R200). -/
def assemble (f : Format) (sign : Bool) (be fr : Nat) : Dword :=
  zext64 (bit sign * 2 ^ (f.totalBits - 1) + be * 2 ^ f.mantissaBits + fr)

/-- PACK.f (R200): FIELD_RANGE when a field does not fit its width. -/
def execPack (f : Format) (s : State) : Answer :=
  let be := opbU64 s.ports
  let fr := opcU64 s.ports
  whenRunning s <|
    if 2 ^ f.exponentBits ≤ be ∨ 2 ^ f.mantissaBits ≤ fr then raisePrecondition .fieldRange s
    else complete s { res0 := assemble f (packSign s.ports) be fr }

/-- The clamp of exp to ETINY - 66 .. BIAS + 1, which changes no result (R203). -/
def clampExponent (f : Format) (exp : Int) : Int :=
  min (max exp (f.etiny - 66)) ((f.bias : Int) + 1)

/-- q: the exponent of the ULP the result will have, max(exp + bitlen(sig) - 1, EMIN) - M (R203). -/
def ulpExponent (f : Format) (sig : Nat) (exp : Int) : Int :=
  max (exp + bitlen sig - 1) f.emin - f.mantissaBits

/-- sig × 2^(-d) to the nearest integer, ties to even, with the sticky bit above the discarded bits;
and whether anything was discarded (R203, "narrow by a right shift"). `d` is at least 1. -/
def roundShiftRight (sig d : Nat) (sticky : Bool) : Nat × Bool :=
  let n0 := sig / 2 ^ d
  let rem := sig % 2 ^ d
  let half := 2 ^ (d - 1)
  (if half < rem ∨ (rem = half ∧ (sticky = true ∨ n0 % 2 = 1)) then n0 + 1 else n0,
   decide (rem ≠ 0) || sticky)

/-- N and `inexact` of R203: widen by a left shift when exp ≥ q, else narrow. -/
def roundSignificand (sig : Nat) (exp q : Int) (sticky : Bool) : Nat × Bool :=
  if q ≤ exp then (sig * 2 ^ (exp - q).toNat, sticky)
  else roundShiftRight sig (q - exp).toNat sticky

/-- The end of R203: the carry into the exponent, then a normal, an overflow to infinity, or a
subnormal or zero, assembled with its flags. -/
def encodeRounded (f : Format) (sign : Bool) (n : Nat) (q : Int) (inexact : Bool) : Result :=
  let m := f.mantissaBits
  let carry := n = 2 ^ (m + 1)
  let n' := if carry then 2 ^ m else n
  let q' := if carry then q + 1 else q
  if 2 ^ m ≤ n' then
    let be := q' + m + f.bias
    if (f.emaxf : Int) ≤ be then
      { res0 := assemble f sign f.emaxf 0, rflags := roundFlags true true false }
    else
      { res0 := assemble f sign be.toNat (n' - 2 ^ m), rflags := roundFlags inexact false false }
  else
    { res0 := assemble f sign 0 n', rflags := roundFlags inexact false (n' = 0) }

/-- The procedure of R203. -/
def roundPack (f : Format) (sig : Nat) (exp : Int) (sticky sign : Bool) : Result :=
  if sig = 0 then { res0 := assemble f sign 0 0 }
  else
    let exp' := clampExponent f exp
    let q := ulpExponent f sig exp'
    let r := roundSignificand sig exp' q sticky
    encodeRounded f sign r.1 q r.2

/-- ROUNDPACK.f (R201): round sig × 2^exp to nearest, ties to even, and encode it. It never faults. -/
def execRoundpack (f : Format) (s : State) : Answer :=
  whenRunning s <| complete s
    (roundPack f (opaU64 s.ports) (opbS64 s.ports) (stickyBit s.ports) (roundSign s.ports))

end Sys2Proof.Machine
end

