-- ==== Sys2Proof/Machine/MultiLimb.lean ====
section
/-! DEFINITION. Wide and multi-limb arithmetic (42_multilimb.md). Every result is the exact integer,
then stored (R147). -/

namespace Sys2Proof.Machine

/-- A value of up to 128 bits as its low and high words, RES0 and RES1 (20_memory.md R47). -/
def wideResult (v : Nat) : Result :=
  { res0 := zext64 (v % 2 ^ 64), res1 := zext64 (v / 2 ^ 64) }

/-- A limb product of LMULS and LMAC10: LR <- p, the carry-out p div 2^W in RES0, and OVF
(R143, R144). -/
def carryResult (width p : Nat) : Result :=
  { lr := p, res0 := zext64 (p / 2 ^ width), rflags := carryOutFlag (p / 2 ^ width) }

/-- c of LCMP: -1, 0 or +1 (R145). -/
def compareCode (x y : Nat) : Int := if x < y then -1 else if x = y then 0 else 1

/-- MUL32X64 (R140): the exact 96-bit product of OPA[31:0] and OPB. -/
def execMul32x64 (s : State) : Answer :=
  whenRunning s <| complete s (wideResult (opaU32 s.ports * opbU64 s.ports))

/-- MUL64X64 (R141): the exact 128-bit product of OPA and OPB. -/
def execMul64x64 (s : State) : Answer :=
  whenRunning s <| complete s (wideResult (opaU64 s.ports * opbU64 s.ports))

/-- LADD (R142): X + Y mod 2^W, CARRY out of the top limb. -/
def execLadd (s : State) : Answer :=
  let t := opX s + opY s
  whenRunning s <| complete s { lr := t, rflags := overflowFlag s.params.vectorBits t }

/-- LMULS (R143): X × OPA[31:0]. -/
def execLmuls (s : State) : Answer :=
  whenRunning s <| complete s (carryResult s.params.vectorBits (opX s * opaU32 s.ports))

/-- LMAC10 (R144): X × 10 + d; DIGIT_RANGE when d > 9. -/
def execLmac10 (s : State) : Answer :=
  let d := opaU64 s.ports
  whenRunning s <|
    if 9 < d then raisePrecondition .digitRange s
    else complete s (carryResult s.params.vectorBits (opX s * 10 + d))

/-- LCMP (R145): compare X and Y as unsigned integers. -/
def execLcmp (s : State) : Answer :=
  whenRunning s <| complete s
    { res0 := sext64 (compareCode (opX s) (opY s)), rflags := compareFlags (opX s) (opY s) }

/-- LSHL (R146): X × 2^s mod 2^W, OVF when a 1 bit is shifted out; SHIFT_RANGE when s ≥ W. -/
def execLshl (s : State) : Answer :=
  let sh := opaU64 s.ports
  whenRunning s <|
    if s.params.vectorBits ≤ sh then raisePrecondition .shiftRange s
    else complete s
      { lr := opX s * 2 ^ sh, rflags := overflowFlag s.params.vectorBits (opX s * 2 ^ sh) }

end Sys2Proof.Machine
end

