-- ==== Sys2Proof/Machine/Rom.lean ====
section
/-! DEFINITION. The power-of-5 ROM (20_memory.md R41 to R45). It is read-only with contents fixed by
the block parameters, so it is read through them and nothing can write it (log 5). -/

namespace Sys2Proof.Machine

/-- The two kinds of table: P5 and P5I (R41). With a format, an index space. -/
inductive Table where
  | p5
  | p5i
  deriving DecidableEq, Repr

/-- The number of entries of a table (R41). -/
def tableSize (p : Params) : Table → Format → Nat
  | .p5, f => p.p5Size f
  | .p5i, f => p.p5iSize f

/-- Entry i of a power-of-5 table of B bits: floor(5^i × 2^(B - bitlen(5^i))) (R43). -/
def p5Entry (b i : Nat) : Nat := 5 ^ i * 2 ^ b / 2 ^ bitlen (5 ^ i)

/-- Entry i of an inverse power-of-5 table: floor(2^(bitlen(5^i) - 1 + BI) / 5^i) + 1 (R44). -/
def p5iEntry (bi i : Nat) : Nat := 2 ^ (bitlen (5 ^ i) - 1 + bi) / 5 ^ i + 1

/-- `RomRead(tbl, fmt, i)` (R42), for an index the reader has checked. -/
def romRead (p : Params) : Table → Format → Nat → Nat
  | .p5, f, i => p5Entry (p.p5Bits f) i
  | .p5i, f, i => p5iEntry (p.p5iBits f) i

end Sys2Proof.Machine
end

