-- ==== Sys2Proof/Machine/Scaler.lean ====
section
/-! DEFINITION. The power-of-5 table-driven mantissa scaler (43_pow5_scaler.md). -/

namespace Sys2Proof.Machine

/-- A table read (R170, R171): TABLE_INDEX outside the table, else the entry, which legal parameters
keep below 2^128 (20_memory.md R57), in RES0 and RES1. -/
def readTable (t : Table) (f : Format) (s : State) : Answer :=
  let i := opaU64 s.ports
  whenRunning s <|
    if tableSize s.params t f ≤ i then raisePrecondition .tableIndex s
    else complete s (wideResult (romRead s.params t f i))

/-- A multiply-shift (R172, R173): TABLE_INDEX outside the table, then RESULT_RANGE when
floor(m × entry / 2^j) is 2^64 or more. The shift count is not wrapped. -/
def multiplyShift (t : Table) (f : Format) (s : State) : Answer :=
  let i := opbU64 s.ports
  let r := (multiplicand f s.ports * romRead s.params t f i) >>> opcU64 s.ports
  whenRunning s <|
    if tableSize s.params t f ≤ i then raisePrecondition .tableIndex s
    else if 2 ^ 64 ≤ r then raisePrecondition .resultRange s
    else complete s { res0 := zext64 r }

/-- A logarithm estimate over 0..hi (R174 to R176): ARG_RANGE outside it. -/
def estimate (hi : Nat) (g : Nat → Nat) (s : State) : Answer :=
  let e := opaS64 s.ports
  whenRunning s <|
    if e < 0 ∨ (hi : Int) < e then raisePrecondition .argRange s
    else complete s { res0 := zext64 (g e.toNat) }

/-- floor(e × log10 b): the largest k with 10^k ≤ b^e, for b ≤ 10 (R175, R176). -/
def floorLog10Pow (b e : Nat) : Nat := Nat.findGreatest (fun k => 10 ^ k ≤ b ^ e) e

/-- The largest k ≤ 27 such that 5^k divides v (R177): 5^28 > 2^64 divides no nonzero 64-bit v. -/
def pow5Factor (v : Nat) : Nat := Nat.findGreatest (fun k => v % 5 ^ k = 0) 27

/-- Whether b^p divides v, for a v below b^limit: from p = limit on, b^limit divides v exactly when
v = 0, and so does b^p (R178, R179; log 11). -/
def multipleOfPow (b limit v p : Nat) : Bool := decide (v % b ^ min p limit = 0)

/-- POW5RD.f (R170). -/
def execPow5rd (f : Format) (s : State) : Answer := readTable .p5 f s

/-- POW5INVRD.f (R171). -/
def execPow5invrd (f : Format) (s : State) : Answer := readTable .p5i f s

/-- MULPOW5.f (R172). -/
def execMulpow5 (f : Format) (s : State) : Answer := multiplyShift .p5 f s

/-- MULPOW5INV.f (R173). -/
def execMulpow5inv (f : Format) (s : State) : Answer := multiplyShift .p5i f s

/-- POW5BITS (R174): bitlen(5^e), over 0..3528. -/
def execPow5bits (s : State) : Answer := estimate 3528 (fun e => bitlen (5 ^ e)) s

/-- LOG10P2 (R175): floor(e × log10 2), over 0..1650. -/
def execLog10p2 (s : State) : Answer := estimate 1650 (floorLog10Pow 2) s

/-- LOG10P5 (R176): floor(e × log10 5), over 0..2620. -/
def execLog10p5 (s : State) : Answer := estimate 2620 (floorLog10Pow 5) s

/-- POW5FACTOR (R177): the exponent of 5 in v; ZERO_ARG when v = 0. -/
def execPow5factor (s : State) : Answer :=
  let v := opaU64 s.ports
  whenRunning s <|
    if v = 0 then raisePrecondition .zeroArg s
    else complete s { res0 := zext64 (pow5Factor v) }

/-- MULTPOW5 (R178): 1 if 5^p divides v, else 0. -/
def execMultpow5 (s : State) : Answer :=
  whenRunning s <| complete s
    { res0 := zext64 (bit (multipleOfPow 5 28 (opaU64 s.ports) (opbU64 s.ports))) }

/-- MULTPOW2 (R179): 1 if 2^p divides v, else 0. -/
def execMultpow2 (s : State) : Answer :=
  whenRunning s <| complete s
    { res0 := zext64 (bit (multipleOfPow 2 64 (opaU64 s.ports) (opbU64 s.ports))) }

end Sys2Proof.Machine
end

