-- ==== Sys2Proof/Machine/StatusAccess.lean ====
section
/-! DEFINITION. Status access: RDFSR (45_system.md). -/

namespace Sys2Proof.Machine

/-- RDFSR (R220): RES0 <- FSR, running or halted; FSR is not changed. -/
def execRdfsr (s : State) : Answer :=
  complete s { res0 := s.fsr.setWidth 64 }

end Sys2Proof.Machine
end

