-- ==== Sys2Proof/Machine/Dispatch.lean ====
section
/-! DEFINITION. One arm per command: the meaning each calls. -/

namespace Sys2Proof.Machine

def exec (i : Instr) (s : State) : Host.Outcome State Fault Refusal :=
  match i with
  | .decode f => Sys2Proof.Machine.execDecode f s
  | .normalize f => Sys2Proof.Machine.execNormalize f s
  | .lzc32 => Sys2Proof.Machine.execLzc32 s
  | .lzc64 => Sys2Proof.Machine.execLzc64 s
  | .bitlen32 => Sys2Proof.Machine.execBitlen32 s
  | .bitlen64 => Sys2Proof.Machine.execBitlen64 s
  | .mul32x64 => Sys2Proof.Machine.execMul32x64 s
  | .mul64x64 => Sys2Proof.Machine.execMul64x64 s
  | .ladd => Sys2Proof.Machine.execLadd s
  | .lmuls => Sys2Proof.Machine.execLmuls s
  | .lmac10 => Sys2Proof.Machine.execLmac10 s
  | .lcmp => Sys2Proof.Machine.execLcmp s
  | .lshl => Sys2Proof.Machine.execLshl s
  | .pow5rd f => Sys2Proof.Machine.execPow5rd f s
  | .pow5invrd f => Sys2Proof.Machine.execPow5invrd f s
  | .mulpow5 f => Sys2Proof.Machine.execMulpow5 f s
  | .mulpow5inv f => Sys2Proof.Machine.execMulpow5inv f s
  | .pow5bits => Sys2Proof.Machine.execPow5bits s
  | .log10p2 => Sys2Proof.Machine.execLog10p2 s
  | .log10p5 => Sys2Proof.Machine.execLog10p5 s
  | .pow5factor => Sys2Proof.Machine.execPow5factor s
  | .multpow5 => Sys2Proof.Machine.execMultpow5 s
  | .multpow2 => Sys2Proof.Machine.execMultpow2 s
  | .pack f => Sys2Proof.Machine.execPack f s
  | .roundpack f => Sys2Proof.Machine.execRoundpack f s
  | .rdfsr => Sys2Proof.Machine.execRdfsr s

end Sys2Proof.Machine
end

