-- ==== Sys2Proof/Machine/Command.lean ====
section
/-! DEFINITION. What an instance does with a command whose inputs have been sampled
(60_exceptions.md R245). -/

namespace Sys2Proof.Machine

/-- Decode the sampled command word and execute it, or take the illegal-command fault (R245). -/
def runCommand (s : State) : Host.Outcome State Fault Refusal :=
  match decode s.ports.cmd with
  | .ok i => exec i s
  | .error c => illegalCommand c s

end Sys2Proof.Machine
end

