-- ==== Sys2Proof/Machine/Step.lean ====
section
/-! DEFINITION. One step of an instance (70_reset_and_hazards.md R275): the next thing the outside does
to it, a command or a reset (R270). -/

namespace Sys2Proof.Machine

/-- One step. Block parameters outside their legal ranges are refused
(93_implementation_defined.md I3). With no command and no reset nothing changes (60_exceptions.md
R247; log 1). -/
def step (s : State) : Host.Outcome State Fault Refusal :=
  if s.params.legal then
    match s.inputs with
    | [] => .next s
    | .reset :: rest => .next (resetInstance s rest)
    | .command p :: rest => runCommand (s.accept p rest)
  else .refused .illegalParameters

/-- `s` with the requester presenting the command word `w` of an `nbits`-bit opcode-table row next,
with the operands now on the operand ports (log 14). -/
def State.withFetchWord (s : State) (nbits w : Nat) : State :=
  { s with inputs :=
      .command { s.ports with cmd := BitVec.ofNat 32 (w % 2 ^ nbits) } :: s.inputs }

end Sys2Proof.Machine
end

