-- ==== Sys2Proof/Machine/Assembler.lean ====
section
/-! DEFINITION. The requester's side of 30_encoding.md R68 and R69: the assembler syntax, the four
pseudo-instructions, and the requester that names responses and presents the commands of a program in
order (00_scope.md R15, 95_test_vectors.md). The block itself holds none of this. -/

namespace Sys2Proof.Machine

/-- An operand as written: a literal, a reference to a result word of an earlier response, a limb
literal, or a reference to an earlier LR (R68). -/
inductive Source where
  | literal (v : Int)
  | result (name : String) (k : Nat)
  | limbs (ls : List Nat)
  | vector (name : String)
  deriving DecidableEq, Repr

/-- `[%name =] MNEMONIC[.S|.D] key=<source> …` (R68). -/
structure Statement where
  bind     : Option String
  mnemonic : String
  suffix   : Option Format
  operands : List (String × Source)
  deriving DecidableEq, Repr

/-! ### Reading the syntax -/

/-- The opening brace of a limb literal. -/
def openBrace : Char := Char.ofNat 123

/-- The closing brace of a limb literal. -/
def closeBrace : Char := Char.ofNat 125

/-- The pieces of `cs` between characters `sep` that stand outside braces; `cur` is the piece being
read, reversed. -/
def splitOutside (sep : Char) (inside : Bool) (cur : List Char) : List Char → List (List Char)
  | [] => [cur.reverse]
  | c :: cs =>
    if c = sep ∧ inside = false then cur.reverse :: splitOutside sep false [] cs
    else if c = openBrace then splitOutside sep true (c :: cur) cs
    else if c = closeBrace then splitOutside sep false (c :: cur) cs
    else splitOutside sep inside (c :: cur) cs

/-- The value of a digit in base `base`. -/
def digitValue (base : Nat) (c : Char) : Option Nat :=
  let n := c.toNat
  let v :=
    if 48 ≤ n ∧ n ≤ 57 then n - 48
    else if 65 ≤ n ∧ n ≤ 70 then n - 55
    else if 97 ≤ n ∧ n ≤ 102 then n - 87
    else base
  if v < base then some v else none

/-- The digits `cs` in base `base`, after the value `acc`. -/
def digitsValue (base : Nat) (acc : Nat) : List Char → Option Nat
  | [] => some acc
  | c :: cs =>
    match digitValue base c with
    | some d => digitsValue base (acc * base + d) cs
    | none => none

/-- An unsigned literal: decimal, or hex with `0x` (R68). -/
def readNat : List Char → Option Nat
  | [] => none
  | ['0', 'x'] => none
  | '0' :: 'x' :: cs => digitsValue 16 0 cs
  | c :: cs => digitsValue 10 0 (c :: cs)

/-- A reference `name.res0`, `name.res1`, `name.res2` or `name.lr`, after its `%` (R68). -/
def readReference (cs : List Char) : Option Source :=
  match splitOutside '.' false [] cs with
  | [name, ['r', 'e', 's', '0']] => some (.result (String.ofList name) 0)
  | [name, ['r', 'e', 's', '1']] => some (.result (String.ofList name) 1)
  | [name, ['r', 'e', 's', '2']] => some (.result (String.ofList name) 2)
  | [name, ['l', 'r']] => some (.vector (String.ofList name))
  | _ => none

/-- `cs` without the blanks before and after it. -/
def trimBlanks (cs : List Char) : List Char :=
  let isBlank := fun c => decide (c = ' ')
  ((cs.dropWhile isBlank).reverse.dropWhile isBlank).reverse

/-- The limbs between the braces, limb 0 first (R68). Blanks may stand around a limb, as in the rule's
own form; a blank inside one, or an empty limb, is no limb, so the line has no command: the model's
choice (log 15, log 18). -/
def readLimbs (cs : List Char) : Option (List Nat) :=
  (splitOutside ',' false [] cs).mapM (fun limb => readNat (trimBlanks limb))

/-- An operand's value (R68). -/
def readSource : List Char → Option Source
  | [] => none
  | '%' :: cs => readReference cs
  | '-' :: c :: cs => (digitsValue 10 0 (c :: cs)).map (fun n => .literal (-(n : Int)))
  | c :: cs =>
    if c = openBrace then
      match cs.reverse with
      | d :: ds => if d = closeBrace then (readLimbs ds.reverse).map .limbs else none
      | [] => none
    else (readNat (c :: cs)).map (fun n => .literal (n : Int))

/-- `key=<source>`. -/
def readOperand (cs : List Char) : Option (String × Source) :=
  match splitOutside '=' false [] cs with
  | [key, v] => (readSource v).map (fun x => (String.ofList key, x))
  | _ => none

/-- `MNEMONIC[.S|.D]` and the operands after it. -/
def readBody (bind : Option String) : List (List Char) → Option Statement
  | [] => none
  | m :: ops =>
    match ops.mapM readOperand, splitOutside '.' false [] m with
    | some os, [name] => some ⟨bind, String.ofList name, none, os⟩
    | some os, [name, ['S']] => some ⟨bind, String.ofList name, some .S, os⟩
    | some os, [name, ['D']] => some ⟨bind, String.ofList name, some .D, os⟩
    | _, _ => none

/-- Read one statement (R68). Its parts are separated by blanks outside braces: the model's choice
(log 18). -/
def readStatement (text : String) : Option Statement :=
  match (splitOutside ' ' false [] text.toList).filter (fun t => t ≠ []) with
  | ('%' :: name) :: ['='] :: body => readBody (some (String.ofList name)) body
  | body => readBody none body

/-! ### Assembling -/

/-- The responses the requester has named, the newest first, so that a lookup finds the newest response
under a name (log 19). -/
abbrev Bindings := List (String × Response)

/-- A resolved operand. -/
inductive Value where
  | scalar (w : Dword)
  | vector (ls : List Limb)
  deriving DecidableEq, Repr

/-- The port value of an operand. A negative decimal stands for its 64-bit two's-complement word and
missing limbs are 0 (R68). A literal too wide for its port, or with more limbs than LIMBS, has no
value (log 15). -/
def Source.resolve (limbs : Nat) (env : Bindings) : Source → Option Value
  | .literal v => if -(2 ^ 63 : Int) ≤ v ∧ v < 2 ^ 64 then some (.scalar (sext64 v)) else none
  | .result name k =>
    (env.lookup name).map (fun r =>
      .scalar (match k with | 0 => r.res0 | 1 => r.res1 | _ => r.res2))
  | .limbs ls =>
    if ls.length ≤ limbs ∧ ls.all (fun n => decide (n < 2 ^ 32)) = true then
      some (.vector (ls.map (BitVec.ofNat 32) ++ List.replicate (limbs - ls.length) 0))
    else none
  | .vector name => (env.lookup name).map (fun r => .vector r.lr)

/-- The scalar operand `key`; an operand left out drives 0 (R68). -/
def scalarOf (ops : List (String × Value)) (key : String) : Option Dword :=
  match ops.lookup key with
  | none => some 0
  | some (.scalar w) => some w
  | some (.vector _) => none

/-- The limb-vector operand `key`; an operand left out drives 0 (R68). -/
def vectorOf (limbs : Nat) (ops : List (String × Value)) (key : String) : Option (List Limb) :=
  match ops.lookup key with
  | none => some (List.replicate limbs 0)
  | some (.vector ls) => some ls
  | some (.scalar _) => none

/-- Each operand has one of the keys `keys`, at most once. -/
def keysAllowed (keys : List String) (ops : List (String × Value)) : Bool :=
  decide (ops.map Prod.fst).Nodup && ops.all (fun o => keys.contains o.1)

/-- The command of a mnemonic with operands a, b, c, x and y (R68). -/
def commandOf (limbs : Nat) (name : String) (suffix : Option Format)
    (ops : List (String × Value)) : Option Ports := do
  let i ← instrOfMnemonic name suffix
  guard (keysAllowed ["a", "b", "c", "x", "y"] ops = true)
  let a ← scalarOf ops "a"
  let b ← scalarOf ops "b"
  let c ← scalarOf ops "c"
  let x ← vectorOf limbs ops "x"
  let y ← vectorOf limbs ops "y"
  pure { cmd := encode i, opa := a, opb := b, opc := c, lx := x, ly := y }

/-- A mnemonic or pseudo-instruction with its resolved operands (R68, R69): each pseudo-instruction
stands for exactly one command. ENCODE's c is s × 2 as a 64-bit word (log 15). -/
def expand (limbs : Nat) (name : String) (suffix : Option Format)
    (ops : List (String × Value)) : Option Ports :=
  match name with
  | "CLASSIFY" => if keysAllowed ["a"] ops then commandOf limbs "DECODE" suffix ops else none
  | "HEXBITLEN" =>
    match keysAllowed ["a"] ops, scalarOf ops "a" with
    | true, some d =>
      if 1 ≤ d.toNat ∧ d.toNat ≤ 15 then commandOf limbs "BITLEN32" suffix ops else none
    | _, _ => none
  | "LMUL10" =>
    if keysAllowed ["x"] ops then commandOf limbs "LMAC10" suffix (("a", .scalar 0) :: ops) else none
  | "ENCODE" =>
    match keysAllowed ["s", "m2", "e2"] ops, scalarOf ops "s", scalarOf ops "m2", scalarOf ops "e2" with
    | true, some s, some m, some e =>
      commandOf limbs "ROUNDPACK" suffix [("a", .scalar m), ("b", .scalar e), ("c", .scalar (s * 2))]
    | _, _, _, _ => none
  | _ => commandOf limbs name suffix ops

/-- The command a statement presents, given the responses named so far. -/
def Statement.assemble (limbs : Nat) (env : Bindings) (st : Statement) : Option Ports :=
  match st.operands.mapM (fun o => (o.2.resolve limbs env).map (fun v => (o.1, v))) with
  | some ops => expand limbs st.mnemonic st.suffix ops
  | none => none

/-! ### The requester -/

/-- One line of a program: a statement, or a reset of the instance (95_test_vectors.md part L3). -/
inductive Line where
  | statement (st : Statement)
  | reset
  deriving DecidableEq, Repr

/-- The requester does one line: it presents the command, or reset is asserted, the instance takes
its step, and a response is kept under its name (R68; 00_scope.md R15). There is no result where the
line does not assemble. A name bound again stands for the newest response from then on, and a reset
leaves the names as they are: the model's choice (log 19). -/
def runLine (env : Bindings) (s : State) : Line → Option (Bindings × State)
  | .reset =>
    match step { s with inputs := .reset :: s.inputs } with
    | .next t => some (env, t)
    | _ => none
  | .statement st =>
    match st.assemble s.params.limbs env with
    | none => none
    | some p =>
      match step { s with inputs := .command p :: s.inputs } with
      | .next t =>
        match st.bind, t.resp with
        | some name, some r => some ((name, r) :: env, t)
        | _, _ => some (env, t)
      | _ => none

/-- A program: its lines in order. -/
def runProgram (env : Bindings) (s : State) : List Line → Option (Bindings × State)
  | [] => some (env, s)
  | l :: ls =>
    match runLine env s l with
    | some (env', t) => runProgram env' t ls
    | none => none

end Sys2Proof.Machine
end

