-- ==== Sys2Proof/Machine/Instances.lean ====
section
/-! DEFINITION. A block of several instances with one ROM: the product of single-instance machines
(60_exceptions.md R258, R259, 70_reset_and_hazards.md R278). Which instance moves is chosen from
outside, by its number; any interleaving is a list of numbers (log 13). -/

namespace Sys2Proof.Machine

/-- The instances of a block. Each has its own FSR, ports and command sequence (R258). -/
structure Block where
  units : List State
  deriving DecidableEq, Repr

/-- INSTANCES instances with the same block parameters, so the same ROM, each right after reset
(R258). -/
def Block.resetWith (p : Params) : Block :=
  { units := List.replicate p.instances (State.resetWith p) }

/-- There are INSTANCES instances and they share the block parameters, so the ROM (R258). -/
def Block.shared (b : Block) (p : Params) : Bool :=
  decide (b.units.length = p.instances) && b.units.all (fun s => decide (s.params = p))

/-- The outside gives instance `k` one more input: a command, or reset of that instance. -/
def Block.present (b : Block) (k : Nat) (i : Input) : Block :=
  { units := b.units.modify k (fun s => { s with inputs := s.inputs ++ [i] }) }

/-- Instance `k` takes one step; every other instance stays as it is (R259). -/
def Block.stepAt (b : Block) (k : Nat) : Host.Outcome Block Fault Refusal :=
  match b.units[k]? with
  | none => .refused (.noSuchInstance k)
  | some s =>
    match step s with
    | .next t => .next { units := b.units.set k t }
    | .fault r => .fault r
    | .refused r => .refused r

/-- The instances step in the order of `ks`, one at a time. -/
def Block.run (b : Block) : List Nat → Host.Outcome Block Fault Refusal
  | [] => .next b
  | k :: ks =>
    match b.stepAt k with
    | .next c => c.run ks
    | .fault r => .fault r
    | .refused r => .refused r

end Sys2Proof.Machine
end

