-- ==== Sys2Proof/Safety.lean ====
section
/-! DEFINITION. What a legal state of an instance is, which port bits a command reads, the value of a
pattern, and the next states the statements are written in. -/

namespace Sys2Proof.Machine

/-! ### Legal states -/

/-- The legal values of FSR (10_state.md R23): 0, or HALT = 1 with the reserved bits 0, CAUSE 1 with
one of the three detail codes of 60_exceptions.md R240, or CAUSE 2 with one of the eight of R241. -/
def fsrLegal (w : Word) : Bool :=
  w == 0 ||
    (fsrHalt w && w.extractLsb' 3 5 == 0 && w.extractLsb' 24 8 == 0 &&
      ((fsrCause w == 1 && decide (1 ≤ (fsrDetail w).toNat ∧ (fsrDetail w).toNat ≤ 3)) ||
       (fsrCause w == 2 && decide (1 ≤ (fsrDetail w).toNat ∧ (fsrDetail w).toNat ≤ 8))))

/-- A response drives LIMBS limbs and RFLAGS[7:6] = 0 (10_state.md R24, R26), and with STATUS ≠ 0
every other port is zero (30_encoding.md R67). -/
def Response.legal (limbs : Nat) (r : Response) : Bool :=
  decide (r.lr.length = limbs) && r.rflags.extractLsb' 6 2 == 0 &&
    (r.status == .ok || r == zeroResponse limbs r.status)

/-- The last response and FSR agree: before the first response there has been no fault; STATUS 1 or 2
is the CAUSE recorded; STATUS ≠ 0 only from a halted instance (60_exceptions.md R242, R243). -/
def respAgrees (w : Word) : Option Response → Bool
  | none => w == 0
  | some r =>
    match r.status with
    | .ok => true
    | .illegal => fsrHalt w && fsrCause w == 1
    | .precondition => fsrHalt w && fsrCause w == 2
    | .halted => fsrHalt w

/-- The invariant of an instance. -/
abbrev State.Inv (s : State) : Prop :=
  s.params.legal = true ∧ fsrLegal s.fsr = true ∧
    s.resp.all (fun r => r.legal s.params.limbs) = true ∧ respAgrees s.fsr s.resp = true

/-! ### Operand bits read -/

/-- The port bits an operation reads (30_encoding.md R66). -/
structure ReadSet where
  opa : Dword := 0
  opb : Dword := 0
  opc : Dword := 0
  lx  : Bool := false
  ly  : Bool := false
  deriving DecidableEq, Repr

/-- The low n bits. -/
def lowBits (n : Nat) : Dword := BitVec.ofNat 64 (2 ^ n - 1)

/-- The table of R66, row by row. -/
def readSet : Instr → ReadSet
  | .decode f => { opa := lowBits f.totalBits }
  | .normalize f => { opa := lowBits f.totalBits }
  | .lzc32 => { opa := lowBits 32 }
  | .bitlen32 => { opa := lowBits 32 }
  | .lzc64 => { opa := lowBits 64 }
  | .bitlen64 => { opa := lowBits 64 }
  | .mul32x64 => { opa := lowBits 32, opb := lowBits 64 }
  | .mul64x64 => { opa := lowBits 64, opb := lowBits 64 }
  | .ladd => { lx := true, ly := true }
  | .lmuls => { opa := lowBits 32, lx := true }
  | .lmac10 => { opa := lowBits 64, lx := true }
  | .lcmp => { lx := true, ly := true }
  | .lshl => { opa := lowBits 64, lx := true }
  | .pow5rd _ => { opa := lowBits 64 }
  | .pow5invrd _ => { opa := lowBits 64 }
  | .mulpow5 f => { opa := lowBits f.totalBits, opb := lowBits 64, opc := lowBits 64 }
  | .mulpow5inv f => { opa := lowBits f.totalBits, opb := lowBits 64, opc := lowBits 64 }
  | .pow5bits => { opa := lowBits 64 }
  | .log10p2 => { opa := lowBits 64 }
  | .log10p5 => { opa := lowBits 64 }
  | .pow5factor => { opa := lowBits 64 }
  | .multpow5 => { opa := lowBits 64, opb := lowBits 64 }
  | .multpow2 => { opa := lowBits 64, opb := lowBits 64 }
  | .pack _ => { opa := lowBits 1, opb := lowBits 64, opc := lowBits 64 }
  | .roundpack _ => { opa := lowBits 64, opb := lowBits 64, opc := lowBits 2 }
  | .rdfsr => {}

/-- Two port samples agree on every bit operation `i` reads. -/
def agreeOnReads (i : Instr) (p q : Ports) : Prop :=
  p.opa &&& (readSet i).opa = q.opa &&& (readSet i).opa ∧
  p.opb &&& (readSet i).opb = q.opb &&& (readSet i).opb ∧
  p.opc &&& (readSet i).opc = q.opc &&& (readSet i).opc ∧
  ((readSet i).lx = true → p.lx = q.lx) ∧ ((readSet i).ly = true → p.ly = q.ly)

/-! ### The value of a pattern -/

/-- The exponent field of a pattern given as an integer, sign left out (40_decoder.md R100). -/
def expField (f : Format) (w : Nat) : Nat := w / 2 ^ f.mantissaBits % 2 ^ f.exponentBits

/-- The fraction field of a pattern. -/
def fracField (f : Format) (w : Nat) : Nat := w % 2 ^ f.mantissaBits

/-- The magnitude of a pattern: (1 + fr/2^M) × 2^(be - BIAS) for a normal, (fr/2^M) × 2^(1 - BIAS) for
a zero or subnormal (40_decoder.md R101). On the infinity pattern the first formula gives 2^(BIAS+1),
the value that stands for infinity in rounding (44_encoder.md R201). -/
def magnitude (f : Format) (w : Nat) : ℚ :=
  if expField f w = 0 then (fracField f w : ℚ) / 2 ^ f.mantissaBits * (2 : ℚ) ^ (1 - (f.bias : ℤ))
  else (1 + (fracField f w : ℚ) / 2 ^ f.mantissaBits) * (2 : ℚ) ^ ((expField f w : ℤ) - f.bias)

/-- The magnitude bits of the infinity pattern: exponent field all ones, fraction 0. -/
def infinityBits (f : Format) : Nat := f.emaxf * 2 ^ f.mantissaBits

/-! ### Words and next states -/

/-- The command word of OPC `opc` with the FMT bit of `f` (30_encoding.md R61, R62). -/
def formatWord (opc : Nat) : Format → Word
  | .S => BitVec.ofNat 32 opc
  | .D => BitVec.ofNat 32 (opc + 0x100)

/-- `n` is the least number with v < 2^n, the `bitlen(v)` of 00_scope.md R10. -/
def isBitLength (v n : Nat) : Prop := v < 2 ^ n ∧ ∀ m, v < 2 ^ m → n ≤ m

/-- STATUS = 0 with these result words and flags, LR all zero. -/
def okWords (s : State) (res0 res1 res2 : Int) (rflags : Nat) : Response :=
  { status := .ok, res0 := BitVec.ofInt 64 res0, res1 := BitVec.ofInt 64 res1,
    res2 := BitVec.ofInt 64 res2, rflags := BitVec.ofNat 8 rflags,
    lr := List.replicate s.params.limbs 0 }

/-- STATUS = 0 with RES0, these flags and this limb vector, RES1 and RES2 zero. -/
def okLimbs (res0 rflags : Nat) (lr : List Limb) : Response :=
  { status := .ok, res0 := BitVec.ofNat 64 res0, res1 := 0, res2 := 0,
    rflags := BitVec.ofNat 8 rflags, lr := lr }

/-- STATUS `st` with every other output zero. -/
def noResults (s : State) (st : Status) : Response :=
  { status := st, res0 := 0, res1 := 0, res2 := 0, rflags := 0,
    lr := List.replicate s.params.limbs 0 }

/-- `s` after a command that answered `r`: the response is driven, and FSR, the block parameters (so
the ROM), the sampled ports and the inputs still to come are as before. -/
def answered (s : State) (r : Response) : State := { s with resp := some r }

/-- `s` after a fault: FSR = 1 | (cause << 1) | (CMD[7:0] << 8) | (d << 16), STATUS = cause, no
results, and nothing else changed (60_exceptions.md R243, R244). -/
def faulted (s : State) (st : Status) (detail : Nat) : State :=
  { s with
    fsr := BitVec.ofNat 32
      (1 + 2 * st.code.toNat + 2 ^ 8 * (s.ports.cmd.toNat % 2 ^ 8) + 2 ^ 16 * detail)
    resp := some (noResults s st) }

end Sys2Proof.Machine
end

