-- ==== Sys2Proof/Certificates/Slice0/Obligations.lean ====
section
/-! DEFINITION. The statements for the provers. Every statement about what a command does says that
`exec` ANSWERS a next state and gives that state whole: `answered s r` (Safety.lean) is `s` with the
response `r`, and FSR, the block parameters (so the ROM), the sampled ports and the inputs still to
come as they were; `faulted s st d` is `answered` with FSR latched. -/

open Sys2Proof Sys2Proof.Machine

/-! ### Reset, events and the shape of a step -/

/-- R270: FSR is 0 after reset. That no response is held yet is R24 (log 2), that the parameters are
legal is the model's choice of defaults (log 4), that nothing is presented is log 1. -/
def Obligations.ResetLeavesFsrZero : Prop :=
  State.reset.fsr = 0 ∧ State.reset.halted = false ∧ State.reset.resp = none ∧
    State.reset.inputs = [] ∧ State.reset.params.legal = true

/-- R270, R271, R249: a reset input clears FSR in one step, whatever the state was, and changes no
parameter, so not the ROM. That the response ports hold no value then is R270's table (log 12). -/
def Obligations.ResetInputClearsFsr : Prop :=
  ∀ (s : State) (rest : List Input), s.params.legal = true → s.inputs = .reset :: rest →
    step s = .next { s with fsr := 0, resp := none, inputs := rest }

/-- R247: no event other than a command or reset changes an instance. That an empty queue of inputs
stands for no event is the model's choice (log 1). -/
def Obligations.NoEventChangesNothing : Prop :=
  ∀ s : State, s.params.legal = true → s.inputs = [] → step s = .next s

/-- 93_implementation_defined.md I3: block parameters outside the legal ranges of R8 are refused, and
no others are. -/
def Obligations.IllegalParametersAreRefused : Prop :=
  ∀ s : State, (step s = .refused .illegalParameters) ↔
    ¬ (2 ≤ s.params.limbs ∧ s.params.p5SizeS = 47 ∧ 1 ≤ s.params.p5SizeD ∧
       1 ≤ s.params.p5iSizeS ∧ 1 ≤ s.params.p5iSizeD ∧
       (1 ≤ s.params.p5BitsS ∧ s.params.p5BitsS ≤ 128) ∧
       (1 ≤ s.params.p5iBitsS ∧ s.params.p5iBitsS ≤ 127) ∧
       (1 ≤ s.params.p5BitsD ∧ s.params.p5BitsD ≤ 128) ∧
       (1 ≤ s.params.p5iBitsD ∧ s.params.p5iBitsD ≤ 127) ∧ 1 ≤ s.params.instances)

/-- R275, R49: when the command presented next decodes, a step is `exec` of it on the state with its
inputs sampled and taken off the list; the list of inputs is the model's choice (log 1). -/
def Obligations.StepRunsTheDecodedCommand : Prop :=
  ∀ (s : State) (p : Ports) (rest : List Input) (i : Instr),
    s.params.legal = true → s.inputs = .command p :: rest → decode p.cmd = .ok i →
    step s = exec i { s with ports := p, inputs := rest }

/-- R277: every command completes with one response, and changes nothing but FSR and the response. -/
def Obligations.EveryCommandAnswersOnce : Prop :=
  ∀ (i : Instr) (s : State), ∃ (w : Word) (r : Response),
    exec i s = .next { s with fsr := w, resp := some r }

/-! ### The invariant -/

/-- The invariant at reset. That the parameters are legal there rests on the model's defaults (log 4),
that no response is held on R24 as the model reads it (log 2). -/
def Obligations.InvariantHoldsAtReset : Prop := State.reset.Inv

/-- Every step keeps the invariant: the parameters legal, FSR one of the values of R23, the response
of the shape of R24, R26 and R67, and STATUS and FSR agreeing as in R242 and R243. That FSR is 0 while
no response is held rests on the model's reset clearing the response (log 12). -/
def Obligations.StepKeepsTheInvariant : Prop :=
  ∀ s t : State, s.Inv → step s = .next t → t.Inv

/-! ### Encoding -/

/-- Words written out from R61 and R64, in hexadecimal and in binary. -/
def Obligations.WrittenOutWordsDecode : Prop :=
  decode 0b00000000000000000000000000000001 = .ok (.decode .S) ∧
  decode 0b00000000000000000000000100000010 = .ok (.normalize .D) ∧
  decode 0b00000000000000000000000000010011 = .ok .bitlen64 ∧
  decode 0b00000000000000000000000000100110 = .ok .lshl ∧
  decode 0b00000000000000000000000100110011 = .ok (.mulpow5inv .D) ∧
  decode 0b00000000000000000000000001000001 = .ok (.roundpack .S) ∧
  decode 0b00000000000000000000000001010000 = .ok .rdfsr ∧
  decode 0x00000000 = .error .unassignedOpcode ∧
  decode 0x00000200 = .error .unassignedOpcode ∧
  decode 0x00000241 = .error .reservedBits ∧
  decode 0x00000150 = .error .fmtNotAllowed

/-- R64: each operation has exactly one command word, and the decoder reads it back. -/
def Obligations.DecodeAndEncodeAgree : Prop :=
  ∀ (w : Word) (i : Instr), decode w = .ok i ↔ w = encode i

/-- R65: the words that name a legal command are exactly the well-formed ones of R61 to R64. -/
def Obligations.DecoderAcceptsExactlyWellFormedWords : Prop :=
  ∀ w : Word, (∃ i, decode w = .ok i) ↔ wellFormedWord w = true

/-! ### Faults, halting and FSR -/

/-- R240, R243, R244, R245 steps 3 to 5: a running instance takes an illegal word as a fault, with
the detail of the first check that fails. The codes and the order of the checks are the spec's own
(D19 to D21). -/
def Obligations.IllegalWordsFault : Prop :=
  ∀ (s : State) (p : Ports) (rest : List Input),
    s.params.legal = true → s.inputs = .command p :: rest → s.halted = false →
    (opcodeAssigned p.cmd = false →
      step s = .next (faulted { s with ports := p, inputs := rest } .illegal 1)) ∧
    (opcodeAssigned p.cmd = true → reservedClear p.cmd = false →
      step s = .next (faulted { s with ports := p, inputs := rest } .illegal 2)) ∧
    (opcodeAssigned p.cmd = true → reservedClear p.cmd = true → formatAllowed p.cmd = false →
      step s = .next (faulted { s with ports := p, inputs := rest } .illegal 3))

/-- R242 and R245 step 1: a halted instance answers every word but 0x00000050 with STATUS = 3, no
result, and FSR unchanged, whether or not the word is legal. The halted state is the spec's own
(D20, D32). -/
def Obligations.HaltedInstanceAnswersHalted : Prop :=
  ∀ (s : State) (p : Ports) (rest : List Input),
    s.params.legal = true → s.inputs = .command p :: rest → s.halted = true →
    p.cmd ≠ 0x00000050 →
    step s = .next { s with ports := p, inputs := rest, resp := some (noResults s .halted) }

/-- R242 for `exec`: while halted no operation but RDFSR executes. -/
def Obligations.HaltedOperationsDoNotExecute : Prop :=
  ∀ (i : Instr) (s : State), s.halted = true → i ≠ .rdfsr →
    exec i s = .next (answered s (noResults s .halted))

/-- R220: RDFSR returns FSR in RES0 with STATUS = 0, running or halted, and changes nothing else;
its one legal word is 0x00000050. While running, OPC 0x50 with FMT = 1 faults with FMT_NOT_ALLOWED
and with a reserved bit set with RESERVED_BITS; while halted, every other word is answered HALTED.
The command is the spec's own (D20, D32). -/
def Obligations.RdfsrReturnsFsr : Prop :=
  (∀ s : State, exec .rdfsr s = .next (answered s (okWords s s.fsr.toNat 0 0 0))) ∧
  (∀ w : Word, decode w = .ok .rdfsr ↔ w = 0x00000050) ∧
  (∀ (s : State) (p : Ports) (rest : List Input),
    s.params.legal = true → s.inputs = .command p :: rest →
    (p.cmd = 0x00000050 → step s = .next { s with
      ports := p, inputs := rest, resp := some (okWords s s.fsr.toNat 0 0 0) }) ∧
    (s.halted = false → p.cmd = 0x00000150 →
      step s = .next (faulted { s with ports := p, inputs := rest } .illegal 3)) ∧
    (s.halted = false → p.cmd.extractLsb' 0 8 = 0x50 → p.cmd.extractLsb' 9 23 ≠ 0 →
      step s = .next (faulted { s with ports := p, inputs := rest } .illegal 2)) ∧
    (s.halted = true → p.cmd ≠ 0x00000050 → step s = .next { s with
      ports := p, inputs := rest, resp := some (noResults s .halted) }))

/-- R250: while halted, no command changes FSR, so it keeps the record of the first fault. -/
def Obligations.FirstFaultIsNeverOverwritten : Prop :=
  ∀ (s t : State) (p : Ports) (rest : List Input),
    s.inputs = .command p :: rest → s.halted = true → step s = .next t → t.fsr = s.fsr

/-- R249: only reset returns an instance to the running state. -/
def Obligations.OnlyResetLeavesTheHaltedState : Prop :=
  ∀ s t : State, s.halted = true → step s = .next t → t.halted = false →
    ∃ rest, s.inputs = .reset :: rest ∧ t.fsr = 0

/-- R23, R243: a command changes FSR only by a fault of a running instance, and a legal operation's
fault is a PRECONDITION with one of the eight detail codes of R241. -/
def Obligations.OnlyAFaultWritesFsr : Prop :=
  ∀ (i : Instr) (s t : State), exec i s = .next t → t.fsr ≠ s.fsr →
    s.halted = false ∧ ∃ d, 1 ≤ d ∧ d ≤ 8 ∧ t = faulted s .precondition d

/-- R244, R67: a response with STATUS ≠ 0 carries no result. -/
def Obligations.NoPartialResults : Prop :=
  ∀ (i : Instr) (s t : State) (r : Response), exec i s = .next t → t.resp = some r →
    r.status ≠ .ok → r = noResults s r.status

/-- R241, last paragraph: DECODE, LZC32, LZC64, BITLEN32, BITLEN64, MUL32X64, MUL64X64, LADD, LMULS,
LCMP, MULTPOW5, MULTPOW2, ROUNDPACK and RDFSR give a result for every operand value. -/
def Obligations.TotalOperationsNeverFault : Prop :=
  ∀ (f : Format) (i : Instr) (s : State), s.halted = false →
    i ∈ [.decode f, .lzc32, .lzc64, .bitlen32, .bitlen64, .mul32x64, .mul64x64, .ladd, .lmuls, .lcmp,
      .multpow5, .multpow2, .roundpack f, .rdfsr] →
    ∃ r : Response, exec i s = .next (answered s r) ∧ r.status = .ok

/-- R23: the fields of FSR after a fault with CAUSE `c`, OPC `o` and DETAIL `d`. -/
def Obligations.FaultWordHasTheFieldsOfFsr : Prop :=
  ∀ (c : BitVec 2) (o d : Octet),
    (faultWord c o d).getLsbD 0 = true ∧ (faultWord c o d).extractLsb' 1 2 = c ∧
    (faultWord c o d).extractLsb' 3 5 = 0 ∧ (faultWord c o d).extractLsb' 8 8 = o ∧
    (faultWord c o d).extractLsb' 16 8 = d ∧ (faultWord c o d).extractLsb' 24 8 = 0

/-! ### Operands -/

/-- R66, R16, R274: an operation's response depends only on the operand bits the table of R66 lists,
the block parameters and FSR.HALT (RDFSR: FSR), and on nothing an earlier command left. A fault's FSR
word depends on CMD[7:0] besides. -/
def Obligations.OnlyListedOperandBitsMatter : Prop :=
  ∀ (i : Instr) (s t : State), s.params = t.params → s.halted = t.halted →
    (i = .rdfsr → s.fsr = t.fsr) → agreeOnReads i s.ports t.ports →
    ∃ u v : State, exec i s = .next u ∧ exec i t = .next v ∧ u.resp = v.resp ∧
      (s.fsr = t.fsr → opcField s.ports.cmd = opcField t.ports.cmd → u.fsr = v.fsr)

/-- R11, R46: val(LX) is the sum of LX[i] × 2^(32 i) over the LIMBS limbs. That a limb the list lacks
counts 0, and that one beyond LIMBS is not read, is the model's choice (log 10): on the hardware a
vector has exactly LIMBS limbs. -/
def Obligations.LimbValueIsTheWeightedSum : Prop :=
  ∀ (n : Nat) (l : List Limb),
    limbVal n l = ∑ i ∈ Finset.range n, (l.getD i 0).toNat * 2 ^ (32 * i)

/-! ### Format decoder -/

/-- R100. The NORMAL bit is the spec's own addition (D3). -/
def Obligations.DecodeSplitsAndClassifies : Prop :=
  ∀ (f : Format) (s : State) (w : Nat), w = s.ports.opa.toNat % 2 ^ f.totalBits →
    decode (formatWord 0x01 f) = .ok (.decode f) ∧
    (s.halted = false →
      exec (.decode f) s = .next (answered s
        (okWords s (w / 2 ^ (f.totalBits - 1) : Nat) (expField f w) (fracField f w)
          (if expField f w = 0 then (if fracField f w = 0 then 0x01 else 0x02)
           else if expField f w = f.emaxf then (if fracField f w = 0 then 0x08 else 0x10)
           else 0x04))))

/-- R101. The fault on a nonfinite pattern and ETINY for a zero are the spec's own choice (D16). -/
def Obligations.NormalizeGivesSignificandAndExponent : Prop :=
  ∀ (f : Format) (s : State) (w be fr : Nat), w = s.ports.opa.toNat % 2 ^ f.totalBits →
    be = expField f w → fr = fracField f w →
    decode (formatWord 0x02 f) = .ok (.normalize f) ∧
    (s.halted = false → be = f.emaxf → exec (.normalize f) s = .next (faulted s .precondition 1)) ∧
    (s.halted = false → be ≠ f.emaxf →
      exec (.normalize f) s = .next (answered s
        (okWords s (if be = 0 then fr else fr + 2 ^ f.mantissaBits : Nat)
          (if be = 0 then 1 - (f.bias : ℤ) - f.mantissaBits else (be : ℤ) - f.bias - f.mantissaBits)
          (w / 2 ^ (f.totalBits - 1) : Nat)
          (if be = 0 then (if fr = 0 then 0x01 else 0x02) else if fr = 0 then 0x24 else 0x04))))

/-- R102: for every finite pattern, m2 × 2^e2 is the exact magnitude, m2 has at most M + 1 bits, e2
is within ETINY and BIAS - M, and POW2 says m2 = 2^M. -/
def Obligations.NormalizeIsExact : Prop :=
  ∀ (f : Format) (s : State) (w : Nat), w = s.ports.opa.toNat % 2 ^ f.totalBits →
    s.halted = false → expField f w ≠ f.emaxf →
    ∃ r : Response, exec (.normalize f) s = .next (answered s r) ∧
      (r.res0.toNat : ℚ) * (2 : ℚ) ^ r.res1.toInt = magnitude f w ∧
      r.res0.toNat < 2 ^ (f.mantissaBits + 1) ∧
      (2 ^ f.mantissaBits ≤ r.res0.toNat ↔ expField f w ≠ 0) ∧
      f.etiny ≤ r.res1.toInt ∧ r.res1.toInt ≤ (f.bias : ℤ) - f.mantissaBits ∧
      (r.rflags.getLsbD 5 = true ↔ r.res0.toNat = 2 ^ f.mantissaBits)

/-- R102: finite patterns with equal sign give equal (m2, e2) only if they are equal. -/
def Obligations.NormalizeLosesNothing : Prop :=
  ∀ (f : Format) (s t : State) (r : Response),
    s.halted = false → t.halted = false →
    expField f (s.ports.opa.toNat % 2 ^ f.totalBits) ≠ f.emaxf →
    exec (.normalize f) s = .next (answered s r) →
    exec (.normalize f) t = .next (answered t r) →
    s.ports.opa.toNat % 2 ^ f.totalBits = t.ports.opa.toNat % 2 ^ f.totalBits

/-! ### Bit-width primitives -/

/-- R122, R123, R10: the bit length is the least n with x < 2^n. The result 0 at 0 is the spec's
own choice (D14). -/
def Obligations.BitLengthsAreLeast : Prop :=
  decode 0x00000012 = .ok .bitlen32 ∧ decode 0x00000013 = .ok .bitlen64 ∧
  ∀ s : State, s.halted = false →
    (∃ n : Nat, isBitLength (s.ports.opa.toNat % 2 ^ 32) n ∧
      exec .bitlen32 s = .next (answered s (okWords s n 0 0 0))) ∧
    (∃ n : Nat, isBitLength s.ports.opa.toNat n ∧
      exec .bitlen64 s = .next (answered s (okWords s n 0 0 0)))

/-- R120, R121: the leading-zero count is the width less the bit length. The full width at 0 is the
spec's own choice (D14). -/
def Obligations.LeadingZerosCompleteTheWidth : Prop :=
  decode 0x00000010 = .ok .lzc32 ∧ decode 0x00000011 = .ok .lzc64 ∧
  ∀ s : State, s.halted = false →
    (∃ n : Nat, n ≤ 32 ∧ isBitLength (s.ports.opa.toNat % 2 ^ 32) n ∧
      exec .lzc32 s = .next (answered s (okWords s (32 - n) 0 0 0))) ∧
    (∃ n : Nat, n ≤ 64 ∧ isBitLength s.ports.opa.toNat n ∧
      exec .lzc64 s = .next (answered s (okWords s (64 - n) 0 0 0)))

/-! ### Wide and multi-limb arithmetic -/

/-- R140, R141: the exact product, low and high words. -/
def Obligations.WideProductsAreExact : Prop :=
  decode 0x00000020 = .ok .mul32x64 ∧ decode 0x00000021 = .ok .mul64x64 ∧
  ∀ s : State, s.halted = false →
    (∃ lo hi : Dword,
      lo.toNat + 2 ^ 64 * hi.toNat = (s.ports.opa.toNat % 2 ^ 32) * s.ports.opb.toNat ∧
      exec .mul32x64 s = .next (answered s (okWords s lo.toNat hi.toNat 0 0))) ∧
    (∃ lo hi : Dword,
      lo.toNat + 2 ^ 64 * hi.toNat = s.ports.opa.toNat * s.ports.opb.toNat ∧
      exec .mul64x64 s = .next (answered s (okWords s lo.toNat hi.toNat 0 0)))

/-- R142: the sum mod 2^W, and CARRY. Wrapping with a carry is the spec's own choice (D15). -/
def Obligations.LaddAddsWithCarry : Prop :=
  decode 0x00000022 = .ok .ladd ∧
  ∀ (s : State) (x y : Nat), x = limbVal s.params.limbs s.ports.lx →
    y = limbVal s.params.limbs s.ports.ly → s.halted = false →
    ∃ (lr : List Limb) (carry : Nat), lr.length = s.params.limbs ∧ carry ≤ 1 ∧
      limbVal s.params.limbs lr + 2 ^ (32 * s.params.limbs) * carry = x + y ∧
      exec .ladd s = .next (answered s (okLimbs 0 carry lr))

/-- R143: the product mod 2^W, the carry-out limb, and OVF. The 32-bit limit of the constant is the
spec's own choice (D15). -/
def Obligations.LmulsMultipliesWithCarryOut : Prop :=
  decode 0x00000023 = .ok .lmuls ∧
  ∀ (s : State) (x k : Nat), x = limbVal s.params.limbs s.ports.lx →
    k = s.ports.opa.toNat % 2 ^ 32 → s.halted = false →
    ∃ (lr : List Limb) (carry : Nat), lr.length = s.params.limbs ∧ carry < 2 ^ 32 ∧
      limbVal s.params.limbs lr + 2 ^ (32 * s.params.limbs) * carry = x * k ∧
      exec .lmuls s = .next (answered s (okLimbs carry (if carry = 0 then 0 else 1) lr))

/-- R144: X × 10 + d mod 2^W, the carry-out 0..9, and OVF; DIGIT_RANGE for d > 9. The fault on d >
9 is the spec's own choice (D15). -/
def Obligations.Lmac10AppendsADigit : Prop :=
  decode 0x00000024 = .ok .lmac10 ∧
  ∀ (s : State) (x d : Nat), x = limbVal s.params.limbs s.ports.lx → d = s.ports.opa.toNat →
    s.halted = false →
    (9 < d → exec .lmac10 s = .next (faulted s .precondition 4)) ∧
    (d ≤ 9 → ∃ (lr : List Limb) (carry : Nat), lr.length = s.params.limbs ∧ carry ≤ 9 ∧
      limbVal s.params.limbs lr + 2 ^ (32 * s.params.limbs) * carry = x * 10 + d ∧
      exec .lmac10 s = .next (answered s (okLimbs carry (if carry = 0 then 0 else 1) lr)))

/-- R145: the comparison of whole unsigned values. -/
def Obligations.LcmpComparesWholeValues : Prop :=
  decode 0x00000025 = .ok .lcmp ∧
  ∀ (s : State) (x y : Nat), x = limbVal s.params.limbs s.ports.lx →
    y = limbVal s.params.limbs s.ports.ly → s.halted = false →
    (x < y → exec .lcmp s = .next (answered s (okWords s (-1) 0 0 0x01))) ∧
    (x = y → exec .lcmp s = .next (answered s (okWords s 0 0 0 0x02))) ∧
    (y < x → exec .lcmp s = .next (answered s (okWords s 1 0 0 0x04)))

/-- R146: X × 2^s mod 2^W, and OVF when a 1 bit is shifted out; SHIFT_RANGE for s ≥ W. The fault on
s at least W is the spec's own choice (D15). -/
def Obligations.LshlShiftsLeft : Prop :=
  decode 0x00000026 = .ok .lshl ∧
  ∀ (s : State) (x n : Nat), x = limbVal s.params.limbs s.ports.lx → n = s.ports.opa.toNat →
    s.halted = false →
    (32 * s.params.limbs ≤ n → exec .lshl s = .next (faulted s .precondition 5)) ∧
    (n < 32 * s.params.limbs → ∃ (lr : List Limb) (out : Nat), lr.length = s.params.limbs ∧
      limbVal s.params.limbs lr + 2 ^ (32 * s.params.limbs) * out = x * 2 ^ n ∧
      exec .lshl s = .next (answered s (okLimbs 0 (if out = 0 then 0 else 1) lr)))

/-! ### Power-of-5 scaler -/

/-- R43, R44: the value of every ROM entry, as the floor of the rational the rule gives. The spec
marks both formulas as general knowledge (D10). -/
def Obligations.RomEntriesAreTheScaledPowers : Prop :=
  ∀ (p : Params) (f : Format) (i len : Nat), isBitLength (5 ^ i) len →
    (romRead p .p5 f i : ℤ) = ⌊(5 : ℚ) ^ i * (2 : ℚ) ^ ((p.p5Bits f : ℤ) - len)⌋ ∧
    (romRead p .p5i f i : ℤ) = ⌊(2 : ℚ) ^ (len - 1 + p.p5iBits f) / (5 : ℚ) ^ i⌋ + 1

/-- R57: the sizes of the entries, and that each fits in 128 bits. -/
def Obligations.RomEntriesFitTheirBitCounts : Prop :=
  ∀ (p : Params) (f : Format) (i : Nat), p.legal = true →
    2 ^ (p.p5Bits f - 1) ≤ romRead p .p5 f i ∧ romRead p .p5 f i < 2 ^ p.p5Bits f ∧
    romRead p .p5i f 0 = 2 ^ p.p5iBits f + 1 ∧
    (1 ≤ i → 2 ^ (p.p5iBits f - 1) < romRead p .p5i f i ∧ romRead p .p5i f i ≤ 2 ^ p.p5iBits f) ∧
    romRead p .p5 f i < 2 ^ 128 ∧ romRead p .p5i f i < 2 ^ 128

/-- R170, R171: a table read gives the whole entry in RES0 and RES1; TABLE_INDEX outside the table.
The inverse table is the spec's own reading (D9). -/
def Obligations.TableReadsGiveTheEntry : Prop :=
  ∀ (f : Format) (s : State) (i : Nat), i = s.ports.opa.toNat →
    decode (formatWord 0x30 f) = .ok (.pow5rd f) ∧
    decode (formatWord 0x31 f) = .ok (.pow5invrd f) ∧
    (s.halted = false → s.params.p5Size f ≤ i →
      exec (.pow5rd f) s = .next (faulted s .precondition 2)) ∧
    (s.halted = false → s.params.p5iSize f ≤ i →
      exec (.pow5invrd f) s = .next (faulted s .precondition 2)) ∧
    (s.params.legal = true → s.halted = false → i < s.params.p5Size f → ∃ lo hi : Dword,
      lo.toNat + 2 ^ 64 * hi.toNat = romRead s.params .p5 f i ∧
      exec (.pow5rd f) s = .next (answered s (okWords s lo.toNat hi.toNat 0 0))) ∧
    (s.params.legal = true → s.halted = false → i < s.params.p5iSize f → ∃ lo hi : Dword,
      lo.toNat + 2 ^ 64 * hi.toNat = romRead s.params .p5i f i ∧
      exec (.pow5invrd f) s = .next (answered s (okWords s lo.toNat hi.toNat 0 0)))

/-- R172: the exact floor of m × entry / 2^j; TABLE_INDEX first, then RESULT_RANGE. Computing the
exact floor is the spec's own definition (D11). -/
def Obligations.Mulpow5IsTheExactFloor : Prop :=
  ∀ (f : Format) (s : State) (m i r : Nat), m = s.ports.opa.toNat % 2 ^ f.totalBits →
    i = s.ports.opb.toNat →
    (r : ℤ) = ⌊((m : ℚ) * romRead s.params .p5 f i) / (2 : ℚ) ^ s.ports.opc.toNat⌋ →
    decode (formatWord 0x32 f) = .ok (.mulpow5 f) ∧
    (s.halted = false →
      (s.params.p5Size f ≤ i → exec (.mulpow5 f) s = .next (faulted s .precondition 2)) ∧
      (i < s.params.p5Size f → 2 ^ 64 ≤ r →
        exec (.mulpow5 f) s = .next (faulted s .precondition 3)) ∧
      (i < s.params.p5Size f → r < 2 ^ 64 →
        exec (.mulpow5 f) s = .next (answered s (okWords s r 0 0 0))))

/-- R173: as R172, over the inverse table. Computing the exact floor is the spec's own definition
(D11). -/
def Obligations.Mulpow5invIsTheExactFloor : Prop :=
  ∀ (f : Format) (s : State) (m q r : Nat), m = s.ports.opa.toNat % 2 ^ f.totalBits →
    q = s.ports.opb.toNat →
    (r : ℤ) = ⌊((m : ℚ) * romRead s.params .p5i f q) / (2 : ℚ) ^ s.ports.opc.toNat⌋ →
    decode (formatWord 0x33 f) = .ok (.mulpow5inv f) ∧
    (s.halted = false →
      (s.params.p5iSize f ≤ q → exec (.mulpow5inv f) s = .next (faulted s .precondition 2)) ∧
      (q < s.params.p5iSize f → 2 ^ 64 ≤ r →
        exec (.mulpow5inv f) s = .next (faulted s .precondition 3)) ∧
      (q < s.params.p5iSize f → r < 2 ^ 64 →
        exec (.mulpow5inv f) s = .next (answered s (okWords s r 0 0 0))))

/-- R180: on an index whose power of 5 fits the entry, MULPOW5 with j = j' + P5_BITS - bitlen(5^i)
gives floor(m × 5^i / 2^j') exactly. -/
def Obligations.Mulpow5ScalesExactly : Prop :=
  ∀ (f : Format) (s : State) (m i len j' r : Nat), m = s.ports.opa.toNat % 2 ^ f.totalBits →
    i = s.ports.opb.toNat → isBitLength (5 ^ i) len → len ≤ s.params.p5Bits f →
    s.ports.opc.toNat = j' + (s.params.p5Bits f - len) → r = m * 5 ^ i / 2 ^ j' → r < 2 ^ 64 →
    i < s.params.p5Size f → s.halted = false →
    exec (.mulpow5 f) s = .next (answered s (okWords s r 0 0 0))

/-- R174: bitlen(5^e) over 0..3528; ARG_RANGE outside it. The domain and the exact value are the
spec's own choice (D12). -/
def Obligations.Pow5bitsIsTheBitLength : Prop :=
  decode 0x00000034 = .ok .pow5bits ∧
  ∀ (s : State) (e : ℤ), e = s.ports.opa.toInt → s.halted = false →
    (e < 0 ∨ 3528 < e → exec .pow5bits s = .next (faulted s .precondition 6)) ∧
    (0 ≤ e → e ≤ 3528 → ∃ n : Nat, isBitLength (5 ^ e.toNat) n ∧
      exec .pow5bits s = .next (answered s (okWords s n 0 0 0)))

/-- R175, R176: the largest k with 10^k ≤ 2^e, 10^k ≤ 5^e; ARG_RANGE outside the domain. The
domains and the exact values are the spec's own choice (D12). -/
def Obligations.LogarithmsAreExactFloors : Prop :=
  decode 0x00000035 = .ok .log10p2 ∧ decode 0x00000036 = .ok .log10p5 ∧
  ∀ (s : State) (e : ℤ), e = s.ports.opa.toInt → s.halted = false →
    (e < 0 ∨ 1650 < e → exec .log10p2 s = .next (faulted s .precondition 6)) ∧
    (0 ≤ e → e ≤ 1650 → ∃ k : Nat, 10 ^ k ≤ 2 ^ e.toNat ∧ 2 ^ e.toNat < 10 ^ (k + 1) ∧
      exec .log10p2 s = .next (answered s (okWords s k 0 0 0))) ∧
    (e < 0 ∨ 2620 < e → exec .log10p5 s = .next (faulted s .precondition 6)) ∧
    (0 ≤ e → e ≤ 2620 → ∃ k : Nat, 10 ^ k ≤ 5 ^ e.toNat ∧ 5 ^ e.toNat < 10 ^ (k + 1) ∧
      exec .log10p5 s = .next (answered s (okWords s k 0 0 0)))

/-- R177: the exponent of 5 in v; ZERO_ARG for v = 0. The fault at 0 is the spec's own choice
(D13). -/
def Obligations.Pow5factorIsTheExponentOfFive : Prop :=
  decode 0x00000037 = .ok .pow5factor ∧
  ∀ (s : State) (v : Nat), v = s.ports.opa.toNat → s.halted = false →
    (v = 0 → exec .pow5factor s = .next (faulted s .precondition 7)) ∧
    (v ≠ 0 → ∃ k : Nat, 5 ^ k ∣ v ∧ ¬ 5 ^ (k + 1) ∣ v ∧ k ≤ 27 ∧
      exec .pow5factor s = .next (answered s (okWords s k 0 0 0)))

/-- R178, R179: whether 5^p, 2^p divides v, for every v and p. Exact arithmetic for every p is the
spec's own definition (D13). -/
def Obligations.DivisibilityTestsAreExact : Prop :=
  decode 0x00000038 = .ok .multpow5 ∧ decode 0x00000039 = .ok .multpow2 ∧
  ∀ (s : State) (v p : Nat), v = s.ports.opa.toNat → p = s.ports.opb.toNat → s.halted = false →
    (5 ^ p ∣ v → exec .multpow5 s = .next (answered s (okWords s 1 0 0 0))) ∧
    (¬ 5 ^ p ∣ v → exec .multpow5 s = .next (answered s (okWords s 0 0 0 0))) ∧
    (2 ^ p ∣ v → exec .multpow2 s = .next (answered s (okWords s 1 0 0 0))) ∧
    (¬ 2 ^ p ∣ v → exec .multpow2 s = .next (answered s (okWords s 0 0 0 0)))

/-! ### Bit-pattern encoder -/

/-- R200: s × 2^(T-1) + be × 2^M + fr; FIELD_RANGE when a field does not fit. Faulting rather than
masking is the spec's own choice (D18). -/
def Obligations.PackAssemblesTheFields : Prop :=
  ∀ (f : Format) (s : State) (be fr : Nat), be = s.ports.opb.toNat → fr = s.ports.opc.toNat →
    decode (formatWord 0x40 f) = .ok (.pack f) ∧
    (s.halted = false → (2 ^ f.exponentBits ≤ be ∨ 2 ^ f.mantissaBits ≤ fr) →
      exec (.pack f) s = .next (faulted s .precondition 8)) ∧
    (s.halted = false → be < 2 ^ f.exponentBits → fr < 2 ^ f.mantissaBits →
      exec (.pack f) s = .next (answered s
        (okWords s
        (s.ports.opa.toNat % 2 * 2 ^ (f.totalBits - 1) + be * 2 ^ f.mantissaBits + fr : Nat) 0 0 0)))

/-- R200, corner cases: PACK of the three fields DECODE gives for w returns w. -/
def Obligations.PackUndoesDecode : Prop :=
  ∀ (f : Format) (s t : State) (r : Response), s.halted = false → t.halted = false →
    exec (.decode f) s = .next (answered s r) →
    t.ports.opa = r.res0 → t.ports.opb = r.res1 → t.ports.opc = r.res2 →
    exec (.pack f) t = .next (answered t
      (okWords t (s.ports.opa.toNat % 2 ^ f.totalBits : Nat) 0 0 0))

/-- R201. For sig = 0 the result is the zero of the given sign and no flag is set, whatever sticky
is. For sig ≠ 0 the result is a zero, subnormal, normal or infinity pattern `w` with the given
sign, and its value `r` (2^(BIAS+1) for infinity) is the candidate nearest to v = sig × 2^exp; of
two equally near, the one whose last bit is 0. With sticky = 1, v stands for a value just above v
(R202): a candidate below r is then farther from it even where it is as far from v, and one above r
must be strictly farther from v. INEXACT, OVERFLOW and UNDERFLOW are as R201 says. Sticky as an
infinitesimal and the exact rounding are the spec's own reading (D17).Infinity as the even neighbour
2^(BIAS+1) is the spec's general knowledge (R201; log 7). -/
def Obligations.RoundpackRoundsToNearestEven : Prop :=
  ∀ (f : Format) (s : State) (v : ℚ) (sticky : Bool) (sign : Nat), s.halted = false →
    v = (s.ports.opa.toNat : ℚ) * (2 : ℚ) ^ s.ports.opb.toInt → sticky = s.ports.opc.getLsbD 0 →
    sign = s.ports.opc.toNat / 2 % 2 →
    decode (formatWord 0x41 f) = .ok (.roundpack f) ∧
    (s.ports.opa = 0 → exec (.roundpack f) s = .next (answered s
      (okWords s (sign * 2 ^ (f.totalBits - 1) : Nat) 0 0 0))) ∧
    (s.ports.opa ≠ 0 → ∃ (w : Nat) (fl : Octet),
      exec (.roundpack f) s = .next (answered s
        (okWords s (sign * 2 ^ (f.totalBits - 1) + w : Nat) 0 0 fl.toNat)) ∧
      w ≤ infinityBits f ∧
      (∀ c, c ≤ infinityBits f → magnitude f c < magnitude f w →
        magnitude f c + magnitude f w < 2 * v ∨
        (magnitude f c + magnitude f w = 2 * v ∧ (sticky = true ∨ w % 2 = 0))) ∧
      (∀ c, c ≤ infinityBits f → magnitude f w < magnitude f c →
        2 * v < magnitude f c + magnitude f w ∨
        (2 * v = magnitude f c + magnitude f w ∧ sticky = false ∧ w % 2 = 0)) ∧
      (fl.getLsbD 0 = true ↔ (magnitude f w ≠ v ∨ sticky = true ∨ w = infinityBits f)) ∧
      (fl.getLsbD 1 = true ↔ w = infinityBits f) ∧ (fl.getLsbD 2 = true ↔ w = 0) ∧
      fl.toNat < 8)

/-- The candidates are in order: a larger pattern up to infinity has a larger value, so "nearest" in
`RoundpackRoundsToNearestEven` names one pattern. -/
def Obligations.PatternOrderIsValueOrder : Prop :=
  ∀ (f : Format) (a b : Nat), a < b → b ≤ infinityBits f → magnitude f a < magnitude f b

/-- R204: ROUNDPACK of what NORMALIZE gives for a finite pattern returns the pattern, RFLAGS = 0. -/
def Obligations.RoundpackUndoesNormalize : Prop :=
  ∀ (f : Format) (s t : State) (r : Response), s.halted = false → t.halted = false →
    expField f (s.ports.opa.toNat % 2 ^ f.totalBits) ≠ f.emaxf →
    exec (.normalize f) s = .next (answered s r) →
    t.ports.opa = r.res0 → t.ports.opb = r.res1 → t.ports.opc = r.res2 * 2 →
    exec (.roundpack f) t = .next (answered t
      (okWords t (s.ports.opa.toNat % 2 ^ f.totalBits : Nat) 0 0 0))

/-! ### Several instances, and the requester -/

/-- R258, R259: a step of instance k changes no other instance, and is the step of that instance
alone. That one instance moves at a time is the model's choice (log 13). -/
def Obligations.InstancesStepIndependently : Prop :=
  ∀ (b c : Block) (k : Nat), b.stepAt k = .next c →
    (∀ j, j ≠ k → c.units[j]? = b.units[j]?) ∧ c.units.length = b.units.length ∧
    ∃ s t, b.units[k]? = some s ∧ step s = .next t ∧ c.units[k]? = some t

/-- R278, R259: the steps of two instances commute (log 13). -/
def Obligations.InstanceStepsCommute : Prop :=
  ∀ (b : Block) (j k : Nat) (c d : Block), j ≠ k → b.stepAt j = .next c → c.stepAt k = .next d →
    ∃ e : Block, b.stepAt k = .next e ∧ e.stepAt j = .next d

/-- R259: any interleaving gives each instance the run it has alone: after the schedule `ks`,
instance k is where as many steps of its own take it as `ks` names it (log 13). -/
def Obligations.AnyInterleavingGivesTheSameInstances : Prop :=
  ∀ (b c : Block) (ks : List Nat) (k : Nat) (s : State), b.run ks = .next c →
    b.units[k]? = some s → ∃ t : State, Sys2Proof.core.run (ks.count k) s = .next t ∧
      c.units[k]? = some t

/-- R69: each pseudo-instruction assembles, to the same one command as its expansion, with that
command's ports written out. That ENCODE's c is s × 2 as a 64-bit word for every s, so mod 2^64, is
the model's choice (log 15), and so is a vector of other than LIMBS limbs (log 10). -/
def Obligations.PseudoInstructionsExpand : Prop :=
  ∀ (n : Nat) (f : Format) (v s m e : Dword) (x : List Limb),
    (expand n "CLASSIFY" (some f) [("a", .scalar v)] =
        expand n "DECODE" (some f) [("a", .scalar v)] ∧
      expand n "DECODE" (some f) [("a", .scalar v)] = some
        { cmd := encode (.decode f), opa := v, opb := 0, opc := 0,
          lx := List.replicate n 0, ly := List.replicate n 0 }) ∧
    (1 ≤ v.toNat → v.toNat ≤ 15 →
      expand n "HEXBITLEN" none [("a", .scalar v)] =
          expand n "BITLEN32" none [("a", .scalar v)] ∧
        expand n "BITLEN32" none [("a", .scalar v)] = some
          { cmd := encode .bitlen32, opa := v, opb := 0, opc := 0,
            lx := List.replicate n 0, ly := List.replicate n 0 }) ∧
    (expand n "LMUL10" none [("x", .vector x)] =
        expand n "LMAC10" none [("a", .scalar 0), ("x", .vector x)] ∧
      expand n "LMAC10" none [("a", .scalar 0), ("x", .vector x)] = some
        { cmd := encode .lmac10, opa := 0, opb := 0, opc := 0,
          lx := x, ly := List.replicate n 0 }) ∧
    (expand n "ENCODE" (some f) [("s", .scalar s), ("m2", .scalar m), ("e2", .scalar e)] =
        expand n "ROUNDPACK" (some f)
          [("a", .scalar m), ("b", .scalar e), ("c", .scalar (s * 2))] ∧
      expand n "ROUNDPACK" (some f)
          [("a", .scalar m), ("b", .scalar e), ("c", .scalar (s * 2))] = some
        { cmd := encode (.roundpack f), opa := m, opb := e, opc := s * 2,
          lx := List.replicate n 0, ly := List.replicate n 0 })
end

