-- ==== Sys2Proof/Laws/Arith.lean ====
section
/-! SUPPORT. The laws of the exact integer notation: bit length, limb vectors, and the port words of
integers. -/

namespace Sys2Proof.Machine

/-! ### Bit length -/

theorem bitlen_zero : bitlen 0 = 0 := rfl

theorem lt_two_pow_bitlen (v : Nat) : v < 2 ^ bitlen v := by
  unfold bitlen
  split
  · simp_all
  · exact Nat.lt_log2_self

theorem bitlen_le_of_lt {v n : Nat} (h : v < 2 ^ n) : bitlen v ≤ n := by
  unfold bitlen
  split
  · exact Nat.zero_le n
  · rename_i hv
    exact (Nat.log2_lt hv).2 h

theorem isBitLength_bitlen (v : Nat) : isBitLength v (bitlen v) :=
  ⟨lt_two_pow_bitlen v, fun _ h => bitlen_le_of_lt h⟩

theorem isBitLength_unique {v n : Nat} (h : isBitLength v n) : n = bitlen v :=
  Nat.le_antisymm (h.2 _ (lt_two_pow_bitlen v)) (bitlen_le_of_lt h.1)

theorem two_pow_bitlen_pred_le {v : Nat} (hv : v ≠ 0) : 2 ^ (bitlen v - 1) ≤ v := by
  unfold bitlen
  rw [if_neg hv]
  exact Nat.log2_self_le hv

theorem bitlen_pos {v : Nat} (hv : v ≠ 0) : 0 < bitlen v := by
  unfold bitlen
  rw [if_neg hv]
  exact Nat.succ_pos _

theorem bitlen_mono {v w : Nat} (h : v ≤ w) : bitlen v ≤ bitlen w :=
  bitlen_le_of_lt (Nat.lt_of_le_of_lt h (lt_two_pow_bitlen w))

/-- A value scaled by a power of two. -/
theorem bitlen_eq_of_bounds {v n : Nat} (hlo : 2 ^ n ≤ v) (hhi : v < 2 ^ (n + 1)) :
    bitlen v = n + 1 := by
  refine Nat.le_antisymm (bitlen_le_of_lt hhi) ?_
  by_contra hlt
  have hv := lt_two_pow_bitlen v
  have : 2 ^ bitlen v ≤ 2 ^ n := Nat.pow_le_pow_right (by decide) (by omega)
  omega

/-! ### Limb vectors -/

@[simp] theorem toLimbs_length (n v : Nat) : (toLimbs n v).length = n := by
  induction n generalizing v with
  | zero => rfl
  | succ n ih => simp [toLimbs, ih]

theorem two_pow_limbs_succ (n : Nat) : 2 ^ (32 * (n + 1)) = 2 ^ 32 * 2 ^ (32 * n) := by
  rw [← Nat.pow_add]
  congr 1
  omega

/-- Storing a value and reading it back keeps it mod 2^W. -/
theorem limbVal_toLimbs (n v : Nat) : limbVal n (toLimbs n v) = v % 2 ^ (32 * n) := by
  induction n generalizing v with
  | zero => simp [limbVal, Nat.mod_one]
  | succ n ih =>
    rw [toLimbs, limbVal, ih, two_pow_limbs_succ, BitVec.toNat_ofNat, Nat.mod_mul]

theorem limbVal_lt (n : Nat) (l : List Limb) : limbVal n l < 2 ^ (32 * n) := by
  induction n generalizing l with
  | zero => simp [limbVal]
  | succ n ih =>
    cases l with
    | nil => simp [limbVal]
    | cons x xs =>
      have hx : x.toNat < 2 ^ 32 := x.isLt
      have hxs := ih xs
      rw [limbVal, two_pow_limbs_succ]
      generalize limbVal n xs = v at hxs
      generalize 2 ^ (32 * n) = w at hxs
      omega

@[simp] theorem toLimbs_zero (n : Nat) : toLimbs n 0 = List.replicate n 0 := by
  induction n with
  | zero => rfl
  | succ n ih => simp [toLimbs, ih, List.replicate_succ]

/-- A value stored in `n` limbs, with what does not fit beside it, is the value. -/
theorem carry_split (n p : Nat) :
    limbVal n (toLimbs n p) + 2 ^ (32 * n) * (p / 2 ^ (32 * n)) = p := by
  rw [limbVal_toLimbs]
  exact Nat.mod_add_div _ _

/-! ### Port words -/

/-- A 128-bit value is its low and high words (20_memory.md R47). -/
theorem wide_split {v : Nat} (hv : v < 2 ^ 128) :
    ∃ lo hi : Dword, lo.toNat + 2 ^ 64 * hi.toNat = v ∧
      lo.toNat = v % 2 ^ 64 ∧ hi.toNat = v / 2 ^ 64 := by
  refine ⟨BitVec.ofNat 64 v, BitVec.ofNat 64 (v / 2 ^ 64), ?_, ?_, ?_⟩ <;>
    simp only [BitVec.toNat_ofNat] <;> omega

/-- A signed port word in range reads back (R10). -/
theorem toInt_ofInt_of_range {e : Int} (h1 : -2 ^ 63 ≤ e) (h2 : e < 2 ^ 63) :
    (BitVec.ofInt 64 e).toInt = e := by
  rw [BitVec.toInt_ofInt]
  apply Int.bmod_eq_of_le <;> norm_num at * <;> omega

theorem zext64_eq_ofInt (v : Nat) : zext64 v = BitVec.ofInt 64 v := by
  simp [zext64, BitVec.ofInt_natCast]

theorem sext64_eq_ofInt (v : Int) : sext64 v = BitVec.ofInt 64 v := rfl

theorem opaU32_eq (p : Ports) : opaU32 p = p.opa.toNat % 2 ^ 32 := by
  simp [opaU32, BitVec.extractLsb'_toNat]

theorem multiplicand_eq (f : Format) (p : Ports) :
    multiplicand f p = p.opa.toNat % 2 ^ f.totalBits := by
  cases f
  · exact opaU32_eq p
  · exact (Nat.mod_eq_of_lt p.opa.isLt).symm

end Sys2Proof.Machine
end

