-- ==== Sys2Proof/Laws/Decode.lean ====
section
/-! SUPPORT. The decoder's table and the fields of a command word, once: what the statements about
encoding are proved from. -/

namespace Sys2Proof

/-- A word with RSV = 0 is its FMT bit and its OPC field (R61). -/
theorem word_eq_fields (w : Word) (h : rsvField w = 0) :
    w = (BitVec.ofBool (fmtField w)).setWidth 32 <<< 8 ||| (opcField w).setWidth 32 := by
  have hb : ∀ i, 9 ≤ i → i < 32 → w.getLsbD i = false := by
    intro i h1 h2
    have hz := congrArg (fun v : BitVec 23 => v.getLsbD (i - 9)) h
    simp only [rsvField, BitVec.getLsbD_extractLsb', BitVec.ofNat_eq_ofNat, BitVec.getLsbD_zero,
      Bool.and_eq_false_imp, decide_eq_true_eq] at hz
    have hi := hz (by omega)
    rwa [show 9 + (i - 9) = i by omega] at hi
  apply BitVec.eq_of_getLsbD_eq
  intro i hi
  by_cases h8 : i < 8
  · simp [opcField, h8]
    intro
    omega
  · by_cases h9 : i = 8
    · subst h9
      simp [fmtField, opcField]
    · have hz := hb i (by omega) hi
      simp [opcField, fmtField, hz, h8]
      omega

/-- A row found under a key stands in the table under that key. -/
theorem mem_of_lookup {α β : Type} [BEq α] [LawfulBEq α] {a : α} {b : β} {l : List (α × β)}
    (h : l.lookup a = some b) : (a, b) ∈ l := by
  induction l with
  | nil => cases h
  | cons e l ih =>
    obtain ⟨k, v⟩ := e
    rw [List.lookup_cons] at h
    split at h
    · rename_i heq
      obtain rfl := eq_of_beq heq
      cases h
      exact List.mem_cons_self
    · exact List.mem_cons_of_mem _ (ih h)

/-- The row the decoder finds under an OPC holds operations with that OPC: of either format where the
row bears one, with FMT 0 where not (R62, R64). -/
theorem rowOf_eq_some {opc : Octet} {row : Row} (h : rowOf opc = some row) :
    (∃ mk, row = .bearing mk ∧
      ∀ b, opcodeOf (mk (formatOfBit b)) = opc ∧ fmtBitOf (mk (formatOfBit b)) = b) ∨
    (∃ i, row = .plain i ∧ opcodeOf i = opc ∧ fmtBitOf i = false) := by
  unfold rowOf at h
  rw [Option.map_eq_some_iff] at h
  obtain ⟨⟨nm, r⟩, hl, rfl⟩ := h
  have hm := mem_of_lookup hl
  simp only [opcodeMap, List.cons_append, List.nil_append, List.mem_cons, List.not_mem_nil, or_false,
    Prod.mk.injEq] at hm
  rcases hm with ⟨rfl, -, rfl⟩ | ⟨rfl, -, rfl⟩ | ⟨rfl, -, rfl⟩ | ⟨rfl, -, rfl⟩ | ⟨rfl, -, rfl⟩ |
    ⟨rfl, -, rfl⟩ | ⟨rfl, -, rfl⟩ | ⟨rfl, -, rfl⟩ | ⟨rfl, -, rfl⟩ | ⟨rfl, -, rfl⟩ | ⟨rfl, -, rfl⟩ |
    ⟨rfl, -, rfl⟩ | ⟨rfl, -, rfl⟩ | ⟨rfl, -, rfl⟩ | ⟨rfl, -, rfl⟩ | ⟨rfl, -, rfl⟩ | ⟨rfl, -, rfl⟩ |
    ⟨rfl, -, rfl⟩ | ⟨rfl, -, rfl⟩ | ⟨rfl, -, rfl⟩ | ⟨rfl, -, rfl⟩ | ⟨rfl, -, rfl⟩ | ⟨rfl, -, rfl⟩ |
    ⟨rfl, -, rfl⟩ | ⟨rfl, -, rfl⟩ | ⟨rfl, -, rfl⟩ <;>
  first
  | exact .inr ⟨_, rfl, rfl, rfl⟩
  | exact .inl ⟨_, rfl, fun b => by cases b <;> exact ⟨rfl, rfl⟩⟩

/-- The decoder's table has a row exactly for the OPC values of R64. -/
theorem rowOf_eq_none (opc : Octet) : rowOf opc = none ↔ assignedOpcodes.contains opc = false := by
  have hall : ∀ o : Fin 256,
      (rowOf (BitVec.ofFin o)).isNone = !(assignedOpcodes.contains (BitVec.ofFin o)) := by
    decide +kernel
  have h := hall opc.toFin
  simp only [BitVec.ofFin_toFin] at h
  rw [← Option.isNone_iff_eq_none, h]
  simp

/-- Whether a row bears a format (R62). -/
def Row.isBearing : Row → Bool
  | .bearing _ => true
  | .plain _ => false

/-- The format-bearing rows are those of R62. -/
theorem isBearing_of_rowOf {opc : Octet} {row : Row} (h : rowOf opc = some row) :
    row.isBearing = formatBearingOpcodes.contains opc := by
  have hall : ∀ o : Fin 256, (rowOf (BitVec.ofFin o)).all
      (fun r => r.isBearing == formatBearingOpcodes.contains (BitVec.ofFin o)) = true := by
    decide +kernel
  have hr := hall opc.toFin
  simp only [BitVec.ofFin_toFin, h, Option.all_some] at hr
  simpa using hr

end Sys2Proof
end

