-- ==== Sys2Proof/Laws/State.lean ====
section
/-! SUPPORT. What each update of a state does to each field, so that no later proof unfolds one. -/

namespace Sys2Proof.Machine

@[simp] theorem setResp_params (s : State) (r : Response) : (s.setResp r).params = s.params := rfl
@[simp] theorem setResp_fsr (s : State) (r : Response) : (s.setResp r).fsr = s.fsr := rfl
@[simp] theorem setResp_ports (s : State) (r : Response) : (s.setResp r).ports = s.ports := rfl
@[simp] theorem setResp_resp (s : State) (r : Response) : (s.setResp r).resp = some r := rfl
@[simp] theorem setResp_inputs (s : State) (r : Response) : (s.setResp r).inputs = s.inputs := rfl

@[simp] theorem setFsr_params (s : State) (w : Word) : (s.setFsr w).params = s.params := rfl
@[simp] theorem setFsr_fsr (s : State) (w : Word) : (s.setFsr w).fsr = w := rfl
@[simp] theorem setFsr_ports (s : State) (w : Word) : (s.setFsr w).ports = s.ports := rfl
@[simp] theorem setFsr_resp (s : State) (w : Word) : (s.setFsr w).resp = s.resp := rfl
@[simp] theorem setFsr_inputs (s : State) (w : Word) : (s.setFsr w).inputs = s.inputs := rfl

@[simp] theorem accept_params (s : State) (p : Ports) (l : List Input) :
    (s.accept p l).params = s.params := rfl
@[simp] theorem accept_fsr (s : State) (p : Ports) (l : List Input) : (s.accept p l).fsr = s.fsr := rfl
@[simp] theorem accept_ports (s : State) (p : Ports) (l : List Input) : (s.accept p l).ports = p := rfl
@[simp] theorem accept_resp (s : State) (p : Ports) (l : List Input) :
    (s.accept p l).resp = s.resp := rfl
@[simp] theorem accept_inputs (s : State) (p : Ports) (l : List Input) :
    (s.accept p l).inputs = l := rfl
@[simp] theorem accept_halted (s : State) (p : Ports) (l : List Input) :
    (s.accept p l).halted = s.halted := rfl

@[simp] theorem resetInstance_params (s : State) (l : List Input) :
    (resetInstance s l).params = s.params := rfl
@[simp] theorem resetInstance_fsr (s : State) (l : List Input) : (resetInstance s l).fsr = 0 := rfl
@[simp] theorem resetInstance_ports (s : State) (l : List Input) :
    (resetInstance s l).ports = s.ports := rfl
@[simp] theorem resetInstance_resp (s : State) (l : List Input) :
    (resetInstance s l).resp = none := rfl
@[simp] theorem resetInstance_inputs (s : State) (l : List Input) :
    (resetInstance s l).inputs = l := rfl

@[simp] theorem answered_params (s : State) (r : Response) : (answered s r).params = s.params := rfl
@[simp] theorem answered_fsr (s : State) (r : Response) : (answered s r).fsr = s.fsr := rfl
@[simp] theorem answered_ports (s : State) (r : Response) : (answered s r).ports = s.ports := rfl
@[simp] theorem answered_resp (s : State) (r : Response) : (answered s r).resp = some r := rfl
@[simp] theorem answered_inputs (s : State) (r : Response) : (answered s r).inputs = s.inputs := rfl

@[simp] theorem faulted_params (s : State) (st : Status) (d : Nat) :
    (faulted s st d).params = s.params := rfl
@[simp] theorem faulted_ports (s : State) (st : Status) (d : Nat) :
    (faulted s st d).ports = s.ports := rfl
@[simp] theorem faulted_resp (s : State) (st : Status) (d : Nat) :
    (faulted s st d).resp = some (noResults s st) := rfl
@[simp] theorem faulted_inputs (s : State) (st : Status) (d : Nat) :
    (faulted s st d).inputs = s.inputs := rfl

@[simp] theorem withFetchWord_params (s : State) (n w : Nat) :
    (s.withFetchWord n w).params = s.params := rfl
@[simp] theorem withFetchWord_fsr (s : State) (n w : Nat) : (s.withFetchWord n w).fsr = s.fsr := rfl
@[simp] theorem withFetchWord_ports (s : State) (n w : Nat) :
    (s.withFetchWord n w).ports = s.ports := rfl
@[simp] theorem withFetchWord_resp (s : State) (n w : Nat) : (s.withFetchWord n w).resp = s.resp := rfl

end Sys2Proof.Machine
end

