-- ==== Sys2Proof/Laws/Ops.lean ====
section
/-! SUPPORT. What the shared operations of Machine/Ops.lean answer, in the words of Safety.lean. -/

namespace Sys2Proof.Machine

/-! ### The fault word -/

theorem opcField_toNat (w : Word) : (opcField w).toNat = w.toNat % 2 ^ 8 := by
  simp [opcField, BitVec.extractLsb'_toNat]

/-- The shifts and ors of R243 as a sum: the fields do not overlap. -/
theorem faultWord_eq_ofNat (c : BitVec 2) (o d : Octet) :
    faultWord c o d =
      BitVec.ofNat 32 (1 + 2 * c.toNat + 2 ^ 8 * o.toNat + 2 ^ 16 * d.toNat) := by
  have hc := c.isLt
  have ho := o.isLt
  have hd := d.isLt
  apply BitVec.eq_of_toNat_eq
  have e1 : (c.toNat % 4294967296) <<< 1 % 4294967296 = c.toNat <<< 1 := by
    simp only [Nat.shiftLeft_eq]; omega
  have e2 : (o.toNat % 4294967296) <<< 8 % 4294967296 = o.toNat <<< 8 := by
    simp only [Nat.shiftLeft_eq]; omega
  have e3 : (d.toNat % 4294967296) <<< 16 % 4294967296 = d.toNat <<< 16 := by
    simp only [Nat.shiftLeft_eq]; omega
  have s1 : 1 ||| c.toNat <<< 1 = c.toNat <<< 1 + 1 := by
    rw [Nat.or_comm]; exact (Nat.shiftLeft_add_eq_or_of_lt (by decide) _).symm
  have s2 : (c.toNat <<< 1 + 1) ||| o.toNat <<< 8 = o.toNat <<< 8 + (c.toNat <<< 1 + 1) := by
    rw [Nat.or_comm]
    exact (Nat.shiftLeft_add_eq_or_of_lt (by simp only [Nat.shiftLeft_eq]; omega) _).symm
  have s3 : (o.toNat <<< 8 + (c.toNat <<< 1 + 1)) ||| d.toNat <<< 16 =
      d.toNat <<< 16 + (o.toNat <<< 8 + (c.toNat <<< 1 + 1)) := by
    rw [Nat.or_comm]
    exact (Nat.shiftLeft_add_eq_or_of_lt (by simp only [Nat.shiftLeft_eq]; omega) _).symm
  simp only [faultWord, BitVec.toNat_or, BitVec.toNat_shiftLeft, BitVec.toNat_setWidth,
    BitVec.toNat_ofNat]
  norm_num only
  rw [e1, e2, e3, s1, s2, s3]
  simp only [Nat.shiftLeft_eq]
  omega

theorem faultWord_toNat (c : BitVec 2) (o d : Octet) :
    (faultWord c o d).toNat = 1 + 2 * c.toNat + 2 ^ 8 * o.toNat + 2 ^ 16 * d.toNat := by
  have hc := c.isLt
  have ho := o.isLt
  have hd := d.isLt
  rw [faultWord_eq_ofNat, BitVec.toNat_ofNat]
  omega

/-- A field of a fault word, from its place in the sum. -/
theorem faultWord_extract {n : Nat} (c : BitVec 2) (o d : Octet) (i : Nat) (x : BitVec n)
    (h : (1 + 2 * c.toNat + 2 ^ 8 * o.toNat + 2 ^ 16 * d.toNat) / 2 ^ i % 2 ^ n = x.toNat) :
    (faultWord c o d).extractLsb' i n = x := by
  apply BitVec.eq_of_toNat_eq
  rw [BitVec.extractLsb'_toNat, faultWord_toNat, Nat.shiftRight_eq_div_pow, h]

@[simp] theorem faultWord_halt (c : BitVec 2) (o d : Octet) : fsrHalt (faultWord c o d) = true := by
  simp [fsrHalt, faultWord]

@[simp] theorem faultWord_cause (c : BitVec 2) (o d : Octet) : fsrCause (faultWord c o d) = c :=
  faultWord_extract c o d 1 c (by have := c.isLt; omega)

@[simp] theorem faultWord_opc (c : BitVec 2) (o d : Octet) : fsrOpc (faultWord c o d) = o :=
  faultWord_extract c o d 8 o (by have := c.isLt; have := o.isLt; omega)

@[simp] theorem faultWord_detail (c : BitVec 2) (o d : Octet) : fsrDetail (faultWord c o d) = d :=
  faultWord_extract c o d 16 d (by have := c.isLt; have := o.isLt; have := d.isLt; omega)

theorem faultWord_reserved_low (c : BitVec 2) (o d : Octet) :
    (faultWord c o d).extractLsb' 3 5 = 0 :=
  faultWord_extract c o d 3 0 (by
    have := c.isLt; have := o.isLt; have := d.isLt
    simp only [BitVec.ofNat_eq_ofNat, BitVec.toNat_ofNat]; omega)

theorem faultWord_reserved_high (c : BitVec 2) (o d : Octet) :
    (faultWord c o d).extractLsb' 24 8 = 0 :=
  faultWord_extract c o d 24 0 (by
    have := c.isLt; have := o.isLt; have := d.isLt
    simp only [BitVec.ofNat_eq_ofNat, BitVec.toNat_ofNat]; omega)

/-! ### Answers -/

theorem zeroResponse_eq (s : State) (st : Status) :
    zeroResponse s.params.limbs st = noResults s st := rfl

theorem answerHalted_eq (s : State) :
    answerHalted s = .next (answered s (noResults s .halted)) := rfl

theorem complete_eq (s : State) (r : Result) :
    complete s r = .next (answered s (okResponse s.params.limbs r)) := rfl

@[simp] theorem whenRunning_of_halted {s : State} {a : Answer} (h : s.halted = true) :
    whenRunning s a = answerHalted s := by simp [whenRunning, h]

@[simp] theorem whenRunning_of_running {s : State} {a : Answer} (h : s.halted = false) :
    whenRunning s a = a := by simp [whenRunning, h]

/-- Taking a fault, as the sum of R243. -/
theorem raise_eq (t : Trap) (s : State) :
    raise t s = .next (faulted s t.status t.detail.toNat) := by
  simp only [raise, faultWord_eq_ofNat, opcField_toNat]
  rfl

theorem raisePrecondition_eq (c : PreconditionCause) (s : State) :
    raisePrecondition c s =
      .next (faulted s .precondition (Trap.precondition c).detail.toNat) := raise_eq _ s

theorem precondition_detail_range (c : PreconditionCause) :
    1 ≤ (Trap.precondition c).detail.toNat ∧ (Trap.precondition c).detail.toNat ≤ 8 := by
  cases c <;> decide

theorem illegal_detail_range (c : IllegalCause) :
    1 ≤ (Trap.illegal c).detail.toNat ∧ (Trap.illegal c).detail.toNat ≤ 3 := by
  cases c <;> decide

theorem faulted_fsr (s : State) (t : Trap) :
    (faulted s t.status t.detail.toNat).fsr =
      faultWord t.status.code (opcField s.ports.cmd) t.detail := by
  rw [faultWord_eq_ofNat, opcField_toNat]
  rfl

/-- A result that drives words and flags only. -/
theorem okResponse_words (s : State) (a b c : Dword) (fl : Octet) :
    okResponse s.params.limbs { res0 := a, res1 := b, res2 := c, rflags := fl } =
      okWords s a.toInt b.toInt c.toInt fl.toNat := by
  simp [okResponse, okWords]

end Sys2Proof.Machine
end

