-- ==== Sys2Proof/Laws/Exec.lean ====
section
/-! SUPPORT. What `exec` and `step` can answer, said once: every later proof about all commands cites
`exec_cases` and `step_cases` instead of unfolding a meaning. -/

namespace Sys2Proof.Machine

/-! ### RFLAGS[7:6] is 0 (10_state.md R26) -/

theorem decodeFlags_high (c : FpClass) : (decodeFlags c).extractLsb' 6 2 = 0 := by
  cases c <;> decide

theorem normalizeFlags_high (c : FpClass) (w : Fields) :
    (normalizeFlags c w).extractLsb' 6 2 = 0 := by
  unfold normalizeFlags
  cases c <;> cases decide (w.be ≠ 0 ∧ w.fr = 0) <;> decide

theorem flag_zero_high (b : Bool) : (flag 0 b).extractLsb' 6 2 = 0 := by
  cases b <;> decide

theorem compareFlags_high (x y : Nat) : (compareFlags x y).extractLsb' 6 2 = 0 := by
  unfold compareFlags
  cases decide (x < y) <;> cases decide (x = y) <;> cases decide (y < x) <;> decide

theorem roundFlags_high (a b c : Bool) : (roundFlags a b c).extractLsb' 6 2 = 0 := by
  cases a <;> cases b <;> cases c <;> decide

theorem encodeRounded_high (f : Format) (sg : Bool) (n : Nat) (q : Int) (x : Bool) :
    (encodeRounded f sg n q x).rflags.extractLsb' 6 2 = 0 := by
  unfold encodeRounded
  dsimp only
  split_ifs <;> exact roundFlags_high _ _ _

theorem roundPack_high (f : Format) (sig : Nat) (e : Int) (st sg : Bool) :
    (roundPack f sig e st sg).rflags.extractLsb' 6 2 = 0 := by
  unfold roundPack
  split
  · exact (by decide : (0 : Octet).extractLsb' 6 2 = 0)
  · exact encodeRounded_high _ _ _ _ _

/-! ### One command -/

/-- The two ways a running command answers: its result, or a precondition fault. -/
def Outcomes (s : State) (a : Answer) : Prop :=
  (∃ r : Result, r.rflags.extractLsb' 6 2 = 0 ∧ a = complete s r) ∨
    ∃ c : PreconditionCause, a = raisePrecondition c s

theorem outcomes_complete {s : State} {r : Result} (h : r.rflags.extractLsb' 6 2 = 0) :
    Outcomes s (complete s r) := .inl ⟨r, h, rfl⟩

theorem outcomes_plain {s : State} {r : Result} (h : r.rflags = 0) : Outcomes s (complete s r) :=
  outcomes_complete (by rw [h]; decide)

theorem outcomes_raise {s : State} (c : PreconditionCause) : Outcomes s (raisePrecondition c s) :=
  .inr ⟨c, rfl⟩

theorem outcomes_ite {s : State} {p : Prop} [Decidable p] {a b : Answer}
    (ha : Outcomes s a) (hb : Outcomes s b) : Outcomes s (if p then a else b) := by
  split
  · exact ha
  · exact hb

/-- Every command but RDFSR is a `whenRunning` of a body that completes or faults. -/
theorem exec_eq_whenRunning (i : Instr) (s : State) (hi : i ≠ .rdfsr) :
    ∃ a, exec i s = whenRunning s a ∧ Outcomes s a := by
  cases i with
  | decode f => exact ⟨_, rfl, outcomes_complete (decodeFlags_high _)⟩
  | normalize f =>
    exact ⟨_, rfl, outcomes_ite (outcomes_raise _) (outcomes_complete (normalizeFlags_high _ _))⟩
  | lzc32 => exact ⟨_, rfl, outcomes_plain rfl⟩
  | lzc64 => exact ⟨_, rfl, outcomes_plain rfl⟩
  | bitlen32 => exact ⟨_, rfl, outcomes_plain rfl⟩
  | bitlen64 => exact ⟨_, rfl, outcomes_plain rfl⟩
  | mul32x64 => exact ⟨_, rfl, outcomes_plain rfl⟩
  | mul64x64 => exact ⟨_, rfl, outcomes_plain rfl⟩
  | ladd => exact ⟨_, rfl, outcomes_complete (flag_zero_high _)⟩
  | lmuls => exact ⟨_, rfl, outcomes_complete (flag_zero_high _)⟩
  | lmac10 =>
    exact ⟨_, rfl, outcomes_ite (outcomes_raise _) (outcomes_complete (flag_zero_high _))⟩
  | lcmp => exact ⟨_, rfl, outcomes_complete (compareFlags_high _ _)⟩
  | lshl => exact ⟨_, rfl, outcomes_ite (outcomes_raise _) (outcomes_complete (flag_zero_high _))⟩
  | pow5rd f => exact ⟨_, rfl, outcomes_ite (outcomes_raise _) (outcomes_plain rfl)⟩
  | pow5invrd f => exact ⟨_, rfl, outcomes_ite (outcomes_raise _) (outcomes_plain rfl)⟩
  | mulpow5 f =>
    exact ⟨_, rfl, outcomes_ite (outcomes_raise _)
      (outcomes_ite (outcomes_raise _) (outcomes_plain rfl))⟩
  | mulpow5inv f =>
    exact ⟨_, rfl, outcomes_ite (outcomes_raise _)
      (outcomes_ite (outcomes_raise _) (outcomes_plain rfl))⟩
  | pow5bits => exact ⟨_, rfl, outcomes_ite (outcomes_raise _) (outcomes_plain rfl)⟩
  | log10p2 => exact ⟨_, rfl, outcomes_ite (outcomes_raise _) (outcomes_plain rfl)⟩
  | log10p5 => exact ⟨_, rfl, outcomes_ite (outcomes_raise _) (outcomes_plain rfl)⟩
  | pow5factor => exact ⟨_, rfl, outcomes_ite (outcomes_raise _) (outcomes_plain rfl)⟩
  | multpow5 => exact ⟨_, rfl, outcomes_plain rfl⟩
  | multpow2 => exact ⟨_, rfl, outcomes_plain rfl⟩
  | pack f => exact ⟨_, rfl, outcomes_ite (outcomes_raise _) (outcomes_plain rfl)⟩
  | roundpack f => exact ⟨_, rfl, outcomes_complete (roundPack_high _ _ _ _ _)⟩
  | rdfsr => exact absurd rfl hi

/-- Everything a command can answer: HALTED, its result, or a precondition fault. -/
theorem exec_cases (i : Instr) (s : State) :
    (s.halted = true ∧ i ≠ .rdfsr ∧ exec i s = .next (answered s (noResults s .halted))) ∨
    (∃ r : Result, r.rflags.extractLsb' 6 2 = 0 ∧
      exec i s = .next (answered s (okResponse s.params.limbs r))) ∨
    (s.halted = false ∧ ∃ c : PreconditionCause,
      exec i s = .next (faulted s .precondition (Trap.precondition c).detail.toNat)) := by
  by_cases hi : i = .rdfsr
  · subst hi
    exact .inr (.inl ⟨{ res0 := s.fsr.setWidth 64 },
      (by decide : (0 : Octet).extractLsb' 6 2 = 0), rfl⟩)
  · obtain ⟨a, ha, ho⟩ := exec_eq_whenRunning i s hi
    cases hh : s.halted with
    | true => exact .inl ⟨rfl, hi, by rw [ha, whenRunning_of_halted hh, answerHalted_eq]⟩
    | false =>
      rw [ha, whenRunning_of_running hh]
      rcases ho with ⟨r, hr, rfl⟩ | ⟨c, rfl⟩
      · exact .inr (.inl ⟨r, hr, rfl⟩)
      · exact .inr (.inr ⟨rfl, c, raisePrecondition_eq c s⟩)

/-! ### One step -/

/-- Everything a step that answers a next state can have done. -/
theorem step_cases {s t : State} (h : step s = .next t) :
    s.params.legal = true ∧
      ((s.inputs = [] ∧ t = s) ∨
       (∃ rest, s.inputs = .reset :: rest ∧ t = resetInstance s rest) ∨
       (∃ p rest i, s.inputs = .command p :: rest ∧ decode p.cmd = .ok i ∧
         exec i (s.accept p rest) = .next t) ∨
       (∃ p rest c, s.inputs = .command p :: rest ∧ decode p.cmd = .error c ∧
         illegalCommand c (s.accept p rest) = .next t)) := by
  unfold step at h
  split at h
  · rename_i hl
    refine ⟨hl, ?_⟩
    split at h
    · rename_i hi
      exact .inl ⟨hi, (Host.Outcome.next.inj h).symm⟩
    · rename_i rest hi
      exact .inr (.inl ⟨rest, hi, (Host.Outcome.next.inj h).symm⟩)
    · rename_i p rest hi
      unfold runCommand at h
      split at h
      · rename_i i hd
        exact .inr (.inr (.inl ⟨p, rest, i, hi, hd, h⟩))
      · rename_i c hd
        exact .inr (.inr (.inr ⟨p, rest, c, hi, hd, h⟩))
  · exact absurd h (by simp)

end Sys2Proof.Machine
end

