-- ==== Sys2Proof/Laws/Instances.lean ====
section
/-! SUPPORT. What one step of a block can do, said once. -/

namespace Sys2Proof.Machine

/-- A step of instance `k` replaces that instance by its own next state. -/
theorem stepAt_eq_next {b c : Block} {k : Nat} :
    b.stepAt k = .next c ↔
      ∃ s t, b.units[k]? = some s ∧ step s = .next t ∧ c = { units := b.units.set k t } := by
  unfold Block.stepAt
  constructor
  · intro h
    split at h
    · cases h
    · rename_i s hs
      split at h
      · rename_i t ht
        exact ⟨s, t, hs, ht, (Host.Outcome.next.inj h).symm⟩
      · cases h
      · cases h
  · rintro ⟨s, t, hs, ht, rfl⟩
    simp [hs, ht]

end Sys2Proof.Machine
end

