-- ==== Sys2Proof/Laws/Operands.lean ====
section
/-! SUPPORT. The operands of Machine/Operands.lean as integers, and the flags of Machine/Flags.lean as
numbers. -/

namespace Sys2Proof.Machine

theorem bit_getLsbD {n : Nat} (w : BitVec n) (i : Nat) :
    bit (w.getLsbD i) = w.toNat / 2 ^ i % 2 := by
  rw [BitVec.getLsbD, bit, Nat.testBit_eq_decide_div_mod_eq]
  have := Nat.mod_two_eq_zero_or_one (w.toNat / 2 ^ i)
  rcases this with h | h <;> simp [h]

theorem packSign_eq (p : Ports) : bit (packSign p) = p.opa.toNat % 2 := by
  rw [packSign, bit_getLsbD, Nat.pow_zero, Nat.div_one]

theorem roundSign_eq (p : Ports) : bit (roundSign p) = p.opc.toNat / 2 % 2 := by
  rw [roundSign, bit_getLsbD, Nat.pow_one]

/-- The fields of a pattern by division (R100). -/
theorem patternFields_sign (f : Format) (p : Ports) :
    bit (patternFields f p).sign = p.opa.toNat % 2 ^ f.totalBits / 2 ^ (f.totalBits - 1) := by
  have := p.opa.isLt
  rw [patternFields, bit_getLsbD]
  cases f <;> simp only [Format.totalBits] <;> omega

theorem patternFields_be (f : Format) (p : Ports) :
    (patternFields f p).be = expField f (p.opa.toNat % 2 ^ f.totalBits) := by
  have := p.opa.isLt
  simp only [patternFields, expField, BitVec.extractLsb'_toNat, Nat.shiftRight_eq_div_pow]
  cases f <;> simp only [Format.totalBits, Format.mantissaBits, Format.exponentBits] <;> omega

theorem patternFields_fr (f : Format) (p : Ports) :
    (patternFields f p).fr = fracField f (p.opa.toNat % 2 ^ f.totalBits) := by
  have := p.opa.isLt
  simp only [patternFields, fracField, BitVec.extractLsb'_toNat, Nat.shiftRight_eq_div_pow]
  cases f <;> simp only [Format.totalBits, Format.mantissaBits] <;> omega

/-- A pattern is its three fields put together (R200). -/
theorem pattern_eq_fields (f : Format) (w : Nat) (hw : w < 2 ^ f.totalBits) :
    w / 2 ^ (f.totalBits - 1) * 2 ^ (f.totalBits - 1) + expField f w * 2 ^ f.mantissaBits +
      fracField f w = w := by
  unfold expField fracField
  cases f <;> simp only [Format.totalBits, Format.mantissaBits, Format.exponentBits] at * <;> omega

theorem expField_lt (f : Format) (w : Nat) : expField f w < 2 ^ f.exponentBits :=
  Nat.mod_lt _ (Nat.two_pow_pos _)

theorem fracField_lt (f : Format) (w : Nat) : fracField f w < 2 ^ f.mantissaBits :=
  Nat.mod_lt _ (Nat.two_pow_pos _)

theorem expField_le_emaxf (f : Format) (w : Nat) : expField f w ≤ f.emaxf :=
  Nat.le_sub_one_of_lt (expField_lt f w)

/-- RFLAGS of DECODE as a number: one bit for the class (R100). -/
theorem decodeFlags_eq (f : Format) (w : Fields) :
    decodeFlags (classOf f w) = BitVec.ofNat 8
      (if w.be = 0 then (if w.fr = 0 then 0x01 else 0x02)
       else if w.be = f.emaxf then (if w.fr = 0 then 0x08 else 0x10) else 0x04) := by
  unfold classOf
  split_ifs <;> decide

/-- RFLAGS of NORMALIZE on a finite pattern as a number (R101). -/
theorem normalizeFlags_eq (f : Format) (w : Fields) (h : w.be ≠ f.emaxf) :
    normalizeFlags (classOf f w) w = BitVec.ofNat 8
      (if w.be = 0 then (if w.fr = 0 then 0x01 else 0x02)
       else if w.fr = 0 then 0x24 else 0x04) := by
  unfold classOf normalizeFlags
  by_cases hb : w.be = 0 <;> by_cases hf : w.fr = 0 <;> simp [hb, hf, h] <;> decide

theorem overflowFlag_eq (w v : Nat) :
    overflowFlag w v = BitVec.ofNat 8 (if 2 ^ w ≤ v then 1 else 0) := by
  unfold overflowFlag
  split <;> rename_i h <;> simp only [h, decide_true, decide_false] <;> decide

theorem carryOutFlag_eq (c : Nat) : carryOutFlag c = BitVec.ofNat 8 (if c = 0 then 0 else 1) := by
  unfold carryOutFlag
  split <;> rename_i h <;> simp only [h, ne_eq, not_true, not_false_iff, decide_true, decide_false] <;>
    decide

/-- An executed command that drives words only. -/
theorem okResponse_of_words (s : State) (a c : Nat) (b : Int) (fl : Nat) :
    okResponse s.params.limbs
        { res0 := zext64 a, res1 := sext64 b, res2 := zext64 c, rflags := BitVec.ofNat 8 fl } =
      okWords s a b c fl := by
  simp [okResponse, okWords, zext64_eq_ofInt, sext64]

/-- An executed command that drives RES0 only. -/
theorem okResponse_of_res0 (s : State) (a : Nat) :
    okResponse s.params.limbs { res0 := zext64 a } = okWords s a 0 0 0 :=
  okResponse_of_words s a 0 0 0

/-- An executed command that drives a 128-bit value in RES0 and RES1. -/
theorem okResponse_wide (s : State) (v : Nat) :
    okResponse s.params.limbs (wideResult v) =
      okWords s (v % 2 ^ 64 : Nat) (v / 2 ^ 64 : Nat) 0 0 := by
  simp [okResponse, okWords, wideResult, zext64_eq_ofInt]

/-- An executed limb product with its carry-out (R143, R144). -/
theorem okResponse_carry (s : State) (w p : Nat) :
    okResponse s.params.limbs (carryResult w p) =
      okLimbs (p / 2 ^ w) (if p / 2 ^ w = 0 then 0 else 1) (toLimbs s.params.limbs p) := by
  simp only [okResponse, okLimbs, carryResult, carryOutFlag_eq, zext64]

end Sys2Proof.Machine
end

