-- ==== Sys2Proof/Laws/PerInstr.lean ====
section
/-! SUPPORT. One law per command, about the command as syntax: its command word has the fields
30_encoding.md R61 to R64 give it. -/

namespace Sys2Proof.Laws.EncodedWord

/-- The word of `i` is well formed, its OPC and FMT fields are those of `i`, and RSV is 0. -/
def Statement (i : Instr) : Prop :=
  wellFormedWord (encode i) = true ∧ opcField (encode i) = opcodeOf i ∧
    fmtField (encode i) = fmtBitOf i ∧ rsvField (encode i) = 0

theorem decode (f : Format) : Statement (.decode f) := by
  cases f <;> exact ⟨by decide, rfl, rfl, rfl⟩

theorem normalize (f : Format) : Statement (.normalize f) := by
  cases f <;> exact ⟨by decide, rfl, rfl, rfl⟩

theorem lzc32 : Statement .lzc32 := ⟨by decide, rfl, rfl, rfl⟩

theorem lzc64 : Statement .lzc64 := ⟨by decide, rfl, rfl, rfl⟩

theorem bitlen32 : Statement .bitlen32 := ⟨by decide, rfl, rfl, rfl⟩

theorem bitlen64 : Statement .bitlen64 := ⟨by decide, rfl, rfl, rfl⟩

theorem mul32x64 : Statement .mul32x64 := ⟨by decide, rfl, rfl, rfl⟩

theorem mul64x64 : Statement .mul64x64 := ⟨by decide, rfl, rfl, rfl⟩

theorem ladd : Statement .ladd := ⟨by decide, rfl, rfl, rfl⟩

theorem lmuls : Statement .lmuls := ⟨by decide, rfl, rfl, rfl⟩

theorem lmac10 : Statement .lmac10 := ⟨by decide, rfl, rfl, rfl⟩

theorem lcmp : Statement .lcmp := ⟨by decide, rfl, rfl, rfl⟩

theorem lshl : Statement .lshl := ⟨by decide, rfl, rfl, rfl⟩

theorem pow5rd (f : Format) : Statement (.pow5rd f) := by
  cases f <;> exact ⟨by decide, rfl, rfl, rfl⟩

theorem pow5invrd (f : Format) : Statement (.pow5invrd f) := by
  cases f <;> exact ⟨by decide, rfl, rfl, rfl⟩

theorem mulpow5 (f : Format) : Statement (.mulpow5 f) := by
  cases f <;> exact ⟨by decide, rfl, rfl, rfl⟩

theorem mulpow5inv (f : Format) : Statement (.mulpow5inv f) := by
  cases f <;> exact ⟨by decide, rfl, rfl, rfl⟩

theorem pow5bits : Statement .pow5bits := ⟨by decide, rfl, rfl, rfl⟩

theorem log10p2 : Statement .log10p2 := ⟨by decide, rfl, rfl, rfl⟩

theorem log10p5 : Statement .log10p5 := ⟨by decide, rfl, rfl, rfl⟩

theorem pow5factor : Statement .pow5factor := ⟨by decide, rfl, rfl, rfl⟩

theorem multpow5 : Statement .multpow5 := ⟨by decide, rfl, rfl, rfl⟩

theorem multpow2 : Statement .multpow2 := ⟨by decide, rfl, rfl, rfl⟩

theorem pack (f : Format) : Statement (.pack f) := by
  cases f <;> exact ⟨by decide, rfl, rfl, rfl⟩

theorem roundpack (f : Format) : Statement (.roundpack f) := by
  cases f <;> exact ⟨by decide, rfl, rfl, rfl⟩

theorem rdfsr : Statement .rdfsr := ⟨by decide, rfl, rfl, rfl⟩

end Sys2Proof.Laws.EncodedWord
end

