-- ==== Sys2Proof/Laws/Reads.lean ====
section
/-! SUPPORT. Two port samples that agree on masked bits (30_encoding.md R66), and two answers built
from the same result. -/

namespace Sys2Proof.Machine

theorem toNat_mod_of_and_lowBits {n : Nat} (hn : n ≤ 64) {a b : Dword}
    (h : a &&& lowBits n = b &&& lowBits n) : a.toNat % 2 ^ n = b.toNat % 2 ^ n := by
  have hl : (lowBits n).toNat = 2 ^ n - 1 := by
    simp only [lowBits, BitVec.toNat_ofNat]
    have h1 := Nat.pow_le_pow_right (show 0 < 2 by decide) hn
    have h2 : 0 < 2 ^ n := Nat.two_pow_pos n
    exact Nat.mod_eq_of_lt (by omega)
  simpa only [BitVec.toNat_and, hl, Nat.and_two_pow_sub_one_eq_mod] using congrArg BitVec.toNat h

theorem eq_of_and_lowBits64 {a b : Dword} (h : a &&& lowBits 64 = b &&& lowBits 64) : a = b := by
  have hm := toNat_mod_of_and_lowBits (le_refl 64) h
  rw [Nat.mod_eq_of_lt a.isLt, Nat.mod_eq_of_lt b.isLt] at hm
  exact BitVec.eq_of_toNat_eq hm

theorem bit_injective {a b : Bool} (h : bit a = bit b) : a = b := by
  revert h
  cases a <;> cases b <;> simp [bit]

/-- The fields of a pattern come from its low T bits. -/
theorem patternFields_congr {f : Format} {p q : Ports}
    (h : p.opa &&& lowBits f.totalBits = q.opa &&& lowBits f.totalBits) :
    patternFields f p = patternFields f q := by
  have hw := toNat_mod_of_and_lowBits (by cases f <;> decide) h
  have h1 : (patternFields f p).sign = (patternFields f q).sign :=
    bit_injective (by rw [patternFields_sign, patternFields_sign, hw])
  have h2 : (patternFields f p).be = (patternFields f q).be := by
    rw [patternFields_be, patternFields_be, hw]
  have h3 : (patternFields f p).fr = (patternFields f q).fr := by
    rw [patternFields_fr, patternFields_fr, hw]
  calc patternFields f p
      = ⟨(patternFields f p).sign, (patternFields f p).be, (patternFields f p).fr⟩ := rfl
    _ = patternFields f q := by rw [h1, h2, h3]

/-- Two answers that drive the same result, or raise the same fault. -/
def SameAnswer (s t : State) (a b : Answer) : Prop :=
  (∃ r, a = complete s r ∧ b = complete t r) ∨
    ∃ c, a = raisePrecondition c s ∧ b = raisePrecondition c t

theorem sameAnswer_complete (s t : State) (r : Result) :
    SameAnswer s t (complete s r) (complete t r) := .inl ⟨r, rfl, rfl⟩

theorem sameAnswer_raise (s t : State) (c : PreconditionCause) :
    SameAnswer s t (raisePrecondition c s) (raisePrecondition c t) := .inr ⟨c, rfl, rfl⟩

theorem sameAnswer_ite {s t : State} (p : Prop) [Decidable p] {a b c d : Answer}
    (h1 : SameAnswer s t a b) (h2 : SameAnswer s t c d) :
    SameAnswer s t (if p then a else c) (if p then b else d) := by
  split
  · exact h1
  · exact h2

/-- Same answers from instances with the same parameters and HALT give the same response, and from
the same FSR and OPC the same FSR. -/
theorem whenRunning_sameAnswer {s t : State} {a b : Answer} (hp : s.params = t.params)
    (hh : s.halted = t.halted) (h : SameAnswer s t a b) :
    ∃ u v : State, whenRunning s a = .next u ∧ whenRunning t b = .next v ∧ u.resp = v.resp ∧
      (s.fsr = t.fsr → opcField s.ports.cmd = opcField t.ports.cmd → u.fsr = v.fsr) := by
  unfold whenRunning
  rw [← hh]
  cases s.halted
  · rcases h with ⟨r, rfl, rfl⟩ | ⟨c, rfl, rfl⟩
    · exact ⟨_, _, rfl, rfl, by simp [hp], fun h _ => h⟩
    · exact ⟨_, _, rfl, rfl, by simp [hp], fun _ ho => by simp [State.setFsr, State.setResp, ho]⟩
  · exact ⟨_, _, rfl, rfl, by simp [hp], fun h _ => h⟩

end Sys2Proof.Machine
end

