-- ==== Sys2Proof/Laws/Rounding.lean ====
section
/-! SUPPORT. The steps of rounding (44_encoder.md R203): the significand rounded to a unit 2^q, and the
encoding of N × 2^q as a pattern with that magnitude. -/

namespace Sys2Proof.Machine

theorem mantissaBits_pos (f : Format) : 1 ≤ f.mantissaBits := by cases f <;> decide

theorem emaxf_eq (f : Format) : f.emaxf = 2 * f.bias + 1 := by cases f <;> decide

theorem bias_pos (f : Format) : 1 ≤ f.bias := by cases f <;> decide

theorem two_zpow_pos (q : ℤ) : (0 : ℚ) < (2 : ℚ) ^ q := by positivity

/-! ### Rounding to a unit -/

/-- The right shift of R203: 2^d × r is within half a unit of sig, a tie goes to the even side, the
sticky bit moves a tie up, and the second component says whether anything was lost. -/
theorem roundShiftRight_spec (sig d : Nat) (sticky : Bool) (hd : 1 ≤ d) :
    let r := roundShiftRight sig d sticky
    2 * r.1 * 2 ^ d ≤ 2 * sig + 2 ^ d ∧
    (2 * r.1 * 2 ^ d = 2 * sig + 2 ^ d → sticky = true ∨ r.1 % 2 = 0) ∧
    2 * sig ≤ (2 * r.1 + 1) * 2 ^ d ∧
    (2 * sig = (2 * r.1 + 1) * 2 ^ d → sticky = false ∧ r.1 % 2 = 0) ∧
    (r.2 = true ↔ r.1 * 2 ^ d ≠ sig ∨ sticky = true) := by
  intro r
  have hdm := Nat.div_add_mod sig (2 ^ d)
  have hlt := Nat.mod_lt sig (Nat.two_pow_pos d)
  have hh : 2 ^ d = 2 * 2 ^ (d - 1) := by
    rw [← Nat.pow_succ']
    congr 1
    omega
  have hp : 0 < 2 ^ (d - 1) := Nat.two_pow_pos _
  simp only [r, roundShiftRight]
  generalize sig / 2 ^ d = n0 at *
  generalize sig % 2 ^ d = rem at *
  rw [hh] at *
  generalize 2 ^ (d - 1) = h at *
  subst hdm
  have e1 : ∀ x, 2 * (x + 1) * (2 * h) = 2 * (2 * h * x) + 2 * (2 * h) := fun x => by ring
  have e2 : ∀ x, 2 * x * (2 * h) = 2 * (2 * h * x) := fun x => by ring
  have e3 : ∀ x, (2 * x + 1) * (2 * h) = 2 * (2 * h * x) + 2 * h := fun x => by ring
  have e4 : ∀ x, (2 * (x + 1) + 1) * (2 * h) = 2 * (2 * h * x) + 2 * (2 * h) + 2 * h :=
    fun x => by ring
  have e5 : ∀ x, (x + 1) * (2 * h) = 2 * h * x + 2 * h := fun x => by ring
  have e6 : ∀ x, x * (2 * h) = 2 * h * x := fun x => by ring
  split <;> rename_i hc
  · rw [e1, e4, e5 n0]
    clear e1 e2 e3 e4 e5 e6
    generalize 2 * h * n0 = y at *
    cases sticky <;> simp at * <;> omega
  · rw [e2, e3, e6 n0]
    clear e1 e2 e3 e4 e5 e6
    generalize 2 * h * n0 = y at *
    cases sticky <;> simp at * <;> omega

/-- N of R203 is the nearest integer to v / 2^q, ties to even, with the sticky bit above a tie. -/
theorem roundSignificand_spec (sig : Nat) (exp q : ℤ) (sticky : Bool) (v : ℚ)
    (hv : v = (sig : ℚ) * (2 : ℚ) ^ exp) :
    let r := roundSignificand sig exp q sticky
    (2 * (r.1 : ℚ) - 1) * 2 ^ q ≤ 2 * v ∧
    ((2 * (r.1 : ℚ) - 1) * 2 ^ q = 2 * v → sticky = true ∨ r.1 % 2 = 0) ∧
    2 * v ≤ (2 * (r.1 : ℚ) + 1) * 2 ^ q ∧
    (2 * v = (2 * (r.1 : ℚ) + 1) * 2 ^ q → sticky = false ∧ r.1 % 2 = 0) ∧
    (r.2 = true ↔ (r.1 : ℚ) * 2 ^ q ≠ v ∨ sticky = true) := by
  intro r
  have hq := two_zpow_pos q
  have h2 : (2 : ℚ) ≠ 0 := by norm_num
  by_cases hle : q ≤ exp
  · have hr : r = (sig * 2 ^ (exp - q).toNat, sticky) := by simp [r, roundSignificand, hle]
    have hval : (r.1 : ℚ) * 2 ^ q = v := by
      rw [hr, hv]
      push_cast
      rw [mul_assoc, ← zpow_natCast, ← zpow_add₀ h2]
      congr 2
      omega
    rw [← hval]
    refine ⟨by nlinarith, fun h => by nlinarith, by nlinarith, fun h => by nlinarith, ?_⟩
    rw [hr]
    simp
  · have hr : r = roundShiftRight sig (q - exp).toNat sticky := by
      simp [r, roundSignificand, hle]
    obtain ⟨a, b, c, d, e⟩ := roundShiftRight_spec sig (q - exp).toNat sticky (by omega)
    rw [← hr] at a b c d e
    have hE := two_zpow_pos exp
    have hqe : (2 : ℚ) ^ q = (2 : ℚ) ^ (q - exp).toNat * 2 ^ exp := by
      rw [← zpow_natCast, ← zpow_add₀ h2]
      congr 1
      omega
    rw [hqe, hv]
    have a' : (2 * (r.1 : ℚ)) * 2 ^ (q - exp).toNat ≤ 2 * sig + 2 ^ (q - exp).toNat := by
      exact_mod_cast a
    have c' : 2 * (sig : ℚ) ≤ (2 * (r.1 : ℚ) + 1) * 2 ^ (q - exp).toNat := by exact_mod_cast c
    refine ⟨?_, ?_, ?_, ?_, ?_⟩
    · rw [← mul_assoc, ← mul_assoc]
      exact mul_le_mul_of_nonneg_right (by linarith) hE.le
    · intro h
      rw [← mul_assoc, ← mul_assoc] at h
      have h := mul_right_cancel₀ hE.ne' h
      have h' : (2 * (r.1 : ℚ)) * 2 ^ (q - exp).toNat = 2 * sig + 2 ^ (q - exp).toNat := by
        linarith
      exact b (by exact_mod_cast h')
    · rw [← mul_assoc, ← mul_assoc]
      exact mul_le_mul_of_nonneg_right (by linarith) hE.le
    · intro h
      rw [← mul_assoc, ← mul_assoc] at h
      have h := mul_right_cancel₀ hE.ne' h
      exact d (by exact_mod_cast h)
    · rw [e, ← mul_assoc]
      refine or_congr_left (not_congr ?_)
      rw [mul_left_inj' hE.ne']
      norm_cast

/-! ### The magnitude of a pattern -/

/-- A pattern's magnitude in units: m2 of 40_decoder.md R101. -/
def unitCount (f : Format) (be fr : Nat) : Nat := if be = 0 then fr else fr + 2 ^ f.mantissaBits

/-- The exponent of that unit: e2 of R101. -/
def unitExponent (f : Format) (be : Nat) : ℤ :=
  if be = 0 then f.etiny else (be : ℤ) - f.bias - f.mantissaBits

theorem magnitude_eq (f : Format) (w : Nat) :
    magnitude f w =
      (unitCount f (expField f w) (fracField f w) : ℚ) * (2 : ℚ) ^ unitExponent f (expField f w) := by
  unfold magnitude unitCount unitExponent
  have h2 : (2 : ℚ) ≠ 0 := by norm_num
  split
  · rw [Format.etiny, zpow_sub₀ h2 (1 - (f.bias : ℤ)), zpow_natCast]
    ring
  · rw [zpow_sub₀ h2 ((expField f w : ℤ) - f.bias), zpow_natCast]
    push_cast
    field_simp
    ring

theorem unitCount_lt (f : Format) {be fr : Nat} (h : fr < 2 ^ f.mantissaBits) :
    unitCount f be fr < 2 ^ (f.mantissaBits + 1) := by
  unfold unitCount
  rw [Nat.pow_succ]
  split <;> omega

theorem etiny_le_unitExponent (f : Format) (be : Nat) : f.etiny ≤ unitExponent f be := by
  unfold unitExponent Format.etiny
  split <;> omega

/-- The fields of a pattern put together from its fields. -/
theorem fields_of_pattern (f : Format) {be fr : Nat} (hbe : be ≤ f.emaxf)
    (hfr : fr < 2 ^ f.mantissaBits) :
    expField f (be * 2 ^ f.mantissaBits + fr) = be ∧
      fracField f (be * 2 ^ f.mantissaBits + fr) = fr := by
  unfold expField fracField
  cases f <;> simp only [Format.mantissaBits, Format.emaxf, Format.exponentBits] at * <;> omega

theorem magnitude_fields (f : Format) {be fr : Nat} (hbe : be ≤ f.emaxf)
    (hfr : fr < 2 ^ f.mantissaBits) :
    magnitude f (be * 2 ^ f.mantissaBits + fr) =
      (unitCount f be fr : ℚ) * (2 : ℚ) ^ unitExponent f be := by
  obtain ⟨h1, h2⟩ := fields_of_pattern f hbe hfr
  rw [magnitude_eq, h1, h2]

theorem magnitude_nonneg (f : Format) (w : Nat) : 0 ≤ magnitude f w := by
  rw [magnitude_eq]
  positivity

theorem magnitude_zero (f : Format) : magnitude f 0 = 0 := by
  have h := magnitude_fields f (be := 0) (fr := 0) (Nat.zero_le _) (Nat.two_pow_pos _)
  simpa [unitCount] using h

/-- Infinity stands for 2^(BIAS+1) (44_encoder.md R201). -/
theorem magnitude_infinity (f : Format) :
    magnitude f (infinityBits f) = (2 : ℚ) ^ ((f.bias : ℤ) + 1) := by
  have h := magnitude_fields f (fr := 0) (le_refl f.emaxf) (Nat.two_pow_pos _)
  have he := emaxf_eq f
  rw [Nat.add_zero] at h
  rw [infinityBits, h, unitCount, unitExponent, if_neg (by omega), if_neg (by omega), he]
  push_cast
  rw [zero_add, ← zpow_natCast, ← zpow_add₀ (by norm_num : (2 : ℚ) ≠ 0)]
  congr 1
  ring

/-- Every pattern is a whole number of units 2^q where q is ETINY, or where it is at least 2^(q+M). -/
theorem magnitude_multiple (f : Format) (c : Nat) {q : ℤ}
    (hc : q = f.etiny ∨ (f.etiny ≤ q ∧ (2 : ℚ) ^ (q + f.mantissaBits) ≤ magnitude f c)) :
    ∃ k : ℕ, magnitude f c = k * (2 : ℚ) ^ q := by
  have h2 : (2 : ℚ) ≠ 0 := by norm_num
  rw [magnitude_eq] at *
  have hm := unitCount_lt f (be := expField f c) (fracField_lt f c)
  have he := etiny_le_unitExponent f (expField f c)
  generalize unitCount f (expField f c) (fracField f c) = m at *
  generalize unitExponent f (expField f c) = e at *
  have hqe : q ≤ e := by
    rcases hc with rfl | ⟨_, hc⟩
    · exact he
    · have h1 : (m : ℚ) * (2 : ℚ) ^ e < (2 : ℚ) ^ ((f.mantissaBits : ℤ) + 1 + e) := by
        rw [zpow_add₀ h2]
        apply mul_lt_mul_of_pos_right _ (two_zpow_pos e)
        have hm' : (m : ℚ) < ((2 ^ (f.mantissaBits + 1) : Nat) : ℚ) := by exact_mod_cast hm
        calc (m : ℚ) < _ := hm'
          _ = _ := by
            push_cast
            rw [← zpow_natCast]
            push_cast
            rfl
      have h3 := lt_of_le_of_lt hc h1
      rw [zpow_lt_zpow_iff_right₀ (by norm_num)] at h3
      omega
  refine ⟨m * 2 ^ (e - q).toNat, ?_⟩
  push_cast
  rw [mul_assoc, ← zpow_natCast, ← zpow_add₀ h2]
  congr 2
  omega

/-- Pattern order is the order of the exponent field, then of the fraction field. -/
theorem fields_lt (f : Format) {a b : Nat} (h : a < b) (hb : b ≤ infinityBits f) :
    expField f a < expField f b ∨
      (expField f a = expField f b ∧ fracField f a < fracField f b) := by
  unfold expField fracField infinityBits at *
  cases f <;> simp only [Format.mantissaBits, Format.emaxf, Format.exponentBits] at * <;> omega

/-- sig × 2^exp is between two powers of two. -/
theorem sig_bounds {sig : Nat} (exp : ℤ) (h0 : sig ≠ 0) :
    (2 : ℚ) ^ (exp + bitlen sig - 1) ≤ (sig : ℚ) * 2 ^ exp ∧
      (sig : ℚ) * 2 ^ exp < (2 : ℚ) ^ (exp + bitlen sig) := by
  have h2 : (2 : ℚ) ≠ 0 := by norm_num
  have hp := bitlen_pos h0
  have hE := two_zpow_pos exp
  have h1 : (2 : ℚ) ^ (bitlen sig - 1) ≤ sig := by exact_mod_cast two_pow_bitlen_pred_le h0
  have h3 : (sig : ℚ) < 2 ^ bitlen sig := by exact_mod_cast lt_two_pow_bitlen sig
  constructor
  · have he : (2 : ℚ) ^ (exp + bitlen sig - 1) = 2 ^ (bitlen sig - 1) * 2 ^ exp := by
      rw [← zpow_natCast, ← zpow_add₀ h2]
      congr 1
      omega
    rw [he]
    exact mul_le_mul_of_nonneg_right h1 hE.le
  · rw [add_comm, zpow_add₀ h2, zpow_natCast]
    exact mul_lt_mul_of_pos_right h3 hE

/-! ### Encoding a rounded significand -/

theorem roundFlags_bits (a b c : Bool) :
    (roundFlags a b c).getLsbD 0 = a ∧ (roundFlags a b c).getLsbD 1 = b ∧
      (roundFlags a b c).getLsbD 2 = c ∧ (roundFlags a b c).toNat < 8 := by
  cases a <;> cases b <;> cases c <;> decide

theorem assemble_eq (f : Format) (sg : Bool) (be fr : Nat) :
    assemble f sg be fr =
      zext64 (bit sg * 2 ^ (f.totalBits - 1) + (be * 2 ^ f.mantissaBits + fr)) := by
  rw [assemble, Nat.add_assoc]

/-- `r` is the pattern `w` with sign `sg`, and its flags say overflow, underflow and inexactness. -/
def EncodesAs (f : Format) (sg ix : Bool) (r : Result) (w : Nat) : Prop :=
  ∃ fl : Octet, r = { res0 := zext64 (bit sg * 2 ^ (f.totalBits - 1) + w), rflags := fl } ∧
    w ≤ infinityBits f ∧ (fl.getLsbD 0 = true ↔ ix = true ∨ w = infinityBits f) ∧
    (fl.getLsbD 1 = true ↔ w = infinityBits f) ∧ (fl.getLsbD 2 = true ↔ w = 0) ∧ fl.toNat < 8

theorem infinityBits_pos (f : Format) : 0 < infinityBits f := by
  have he := emaxf_eq f
  unfold infinityBits
  exact Nat.mul_pos (by omega) (Nat.two_pow_pos _)

theorem two_pow_mantissaBits_even (f : Format) (k : Nat) : k * 2 ^ f.mantissaBits % 2 = 0 := by
  obtain ⟨m, hm⟩ := Nat.exists_eq_add_of_le (mantissaBits_pos f)
  rw [hm, Nat.pow_add, Nat.mul_left_comm]
  simp

/-- The overflow of R203. -/
theorem encodesAs_infinity (f : Format) (sg ix : Bool) :
    EncodesAs f sg ix { res0 := assemble f sg f.emaxf 0, rflags := roundFlags true true false }
      (infinityBits f) := by
  obtain ⟨b0, b1, b2, b3⟩ := roundFlags_bits true true false
  have hpos := infinityBits_pos f
  refine ⟨_, by rw [assemble_eq, Nat.add_zero]; rfl, le_rfl, ?_, ?_, ?_, b3⟩
  · rw [b0]
    simp
  · rw [b1]
    simp
  · rw [b2]
    simp
    omega

/-- The normal result of R203: a significand n of M + 1 bits in units 2^q. -/
theorem encodesAs_normal (f : Format) (sg ix : Bool) {n be : Nat} {q : ℤ}
    (h1 : 2 ^ f.mantissaBits ≤ n) (h2 : n < 2 ^ (f.mantissaBits + 1))
    (hq : (be : ℤ) = q + f.mantissaBits + f.bias) (hbe : 1 ≤ be) (hbe' : be < f.emaxf) :
    ∃ w, EncodesAs f sg ix
        { res0 := assemble f sg be (n - 2 ^ f.mantissaBits), rflags := roundFlags ix false false } w ∧
      magnitude f w = n * (2 : ℚ) ^ q ∧ w % 2 = n % 2 := by
  obtain ⟨b0, b1, b2, b3⟩ := roundFlags_bits ix false false
  have hs : 2 ^ (f.mantissaBits + 1) = 2 * 2 ^ f.mantissaBits := Nat.pow_succ'
  have hlt : be * 2 ^ f.mantissaBits + (n - 2 ^ f.mantissaBits) < infinityBits f := by
    unfold infinityBits
    calc _ < be * 2 ^ f.mantissaBits + 2 ^ f.mantissaBits := by omega
      _ = (be + 1) * 2 ^ f.mantissaBits := by ring
      _ ≤ _ := Nat.mul_le_mul_right _ hbe'
  have hpos : 0 < be * 2 ^ f.mantissaBits := Nat.mul_pos hbe (Nat.two_pow_pos _)
  refine ⟨be * 2 ^ f.mantissaBits + (n - 2 ^ f.mantissaBits),
    ⟨_, by rw [assemble_eq], hlt.le, ?_, ?_, ?_, b3⟩, ?_, ?_⟩
  · rw [b0]
    constructor
    · exact .inl
    · rintro (h | h)
      · exact h
      · omega
  · rw [b1]
    simp
    omega
  · rw [b2]
    simp
    omega
  · rw [magnitude_fields f hbe'.le (by omega), unitCount, unitExponent, if_neg (by omega),
      if_neg (by omega), Nat.sub_add_cancel h1]
    congr 2
    omega
  · have p1 := two_pow_mantissaBits_even f be
    have p2 := two_pow_mantissaBits_even f 1
    omega

/-- The subnormal or zero result of R203. -/
theorem encodesAs_subnormal (f : Format) (sg ix : Bool) {n : Nat} (h : n < 2 ^ f.mantissaBits) :
    EncodesAs f sg ix { res0 := assemble f sg 0 n, rflags := roundFlags ix false (n = 0) } n ∧
      magnitude f n = n * (2 : ℚ) ^ f.etiny := by
  obtain ⟨b0, b1, b2, b3⟩ := roundFlags_bits ix false (n = 0)
  have he := emaxf_eq f
  have hle : 2 ^ f.mantissaBits ≤ infinityBits f := by
    unfold infinityBits
    exact Nat.le_mul_of_pos_left _ (by omega)
  refine ⟨⟨_, by rw [assemble_eq]; simp, by omega, ?_, ?_, ?_, b3⟩, ?_⟩
  · rw [b0]
    constructor
    · exact .inl
    · rintro (h | h)
      · exact h
      · omega
  · rw [b1]
    simp
    omega
  · rw [b2]
    simp
  · have hm := magnitude_fields f (be := 0) (Nat.zero_le _) h
    rw [Nat.zero_mul, Nat.zero_add] at hm
    rw [hm, unitCount, unitExponent, if_pos rfl, if_pos rfl]

/-- The end of R203 on N × 2^q: the pattern with that magnitude, or infinity from 2^(BIAS+1) on. -/
theorem encodeRounded_spec (f : Format) (sg : Bool) {n : Nat} {q : ℤ} (ix : Bool)
    (hn : n ≤ 2 ^ (f.mantissaBits + 1)) (hq : f.etiny ≤ q)
    (hnq : q = f.etiny ∨ 2 ^ f.mantissaBits ≤ n) :
    ∃ w, EncodesAs f sg ix (encodeRounded f sg n q ix) w ∧
      (q + f.mantissaBits ≤ f.bias → magnitude f w = n * (2 : ℚ) ^ q ∧ w % 2 = n % 2) ∧
      ((f.bias : ℤ) < q + f.mantissaBits → w = infinityBits f) := by
  have h2 : (2 : ℚ) ≠ 0 := by norm_num
  have he := emaxf_eq f
  have hb := bias_pos f
  have hp : 0 < 2 ^ f.mantissaBits := Nat.two_pow_pos _
  have hs : 2 ^ (f.mantissaBits + 1) = 2 * 2 ^ f.mantissaBits := Nat.pow_succ'
  have het : f.etiny = 1 - (f.bias : ℤ) - f.mantissaBits := rfl
  unfold encodeRounded
  dsimp only
  by_cases hc : n = 2 ^ (f.mantissaBits + 1)
  · simp only [hc, if_true]
    rw [if_pos le_rfl]
    have hval : ((2 ^ (f.mantissaBits + 1) : Nat) : ℚ) * 2 ^ q =
        ((2 ^ f.mantissaBits : Nat) : ℚ) * 2 ^ (q + 1) := by
      push_cast
      rw [zpow_add_one₀ h2]
      ring
    have hpar : 2 ^ (f.mantissaBits + 1) % 2 = 0 := by omega
    split
    · rename_i hov
      refine ⟨_, encodesAs_infinity f sg ix, fun h => ⟨?_, ?_⟩, fun _ => rfl⟩
      · rw [magnitude_infinity, hval]
        push_cast
        rw [← zpow_natCast, ← zpow_add₀ h2]
        congr 1
        omega
      · rw [hpar]
        exact two_pow_mantissaBits_even f f.emaxf
    · rename_i hov
      obtain ⟨w, hw, hm, hw2⟩ := encodesAs_normal f sg ix (n := 2 ^ f.mantissaBits) (q := q + 1)
        (be := (q + 1 + f.mantissaBits + f.bias).toNat) le_rfl (by omega)
        (Int.toNat_of_nonneg (by omega)) (by omega) (by omega)
      refine ⟨w, hw, fun _ => ⟨by rw [hm, hval], ?_⟩, fun h => by omega⟩
      have p2 := two_pow_mantissaBits_even f 1
      omega
  · simp only [hc, if_false]
    by_cases hM : 2 ^ f.mantissaBits ≤ n
    · rw [if_pos hM]
      split
      · exact ⟨_, encodesAs_infinity f sg ix, fun h => by omega, fun _ => rfl⟩
      · obtain ⟨w, hw, hm⟩ := encodesAs_normal f sg ix
          (be := (q + f.mantissaBits + f.bias).toNat) hM (by omega)
          (Int.toNat_of_nonneg (by omega)) (by omega) (by omega)
        exact ⟨w, hw, fun _ => hm, fun h => by omega⟩
    · rw [if_neg hM]
      obtain rfl : q = f.etiny := by tauto
      obtain ⟨hw, hm⟩ := encodesAs_subnormal f sg ix (not_le.1 hM)
      exact ⟨n, hw, fun _ => ⟨hm, rfl⟩, fun h => by omega⟩

end Sys2Proof.Machine
end

