-- ==== Sys2Proof/Laws/Safety.lean ====
section
/-! SUPPORT. The parts of the invariant of Safety.lean, one lemma per way a command answers. -/

namespace Sys2Proof.Machine

theorem noResults_legal (s : State) (st : Status) :
    (noResults s st).legal s.params.limbs = true := by
  rw [← zeroResponse_eq]
  simp [Response.legal, zeroResponse]

theorem okResponse_legal (n : Nat) {r : Result} (h : r.rflags.extractLsb' 6 2 = 0) :
    (okResponse n r).legal n = true := by
  simp [Response.legal, okResponse, h]

theorem fsrLegal_faultWord (t : Trap) (opc : Octet) :
    fsrLegal (faultWord t.status.code opc t.detail) = true := by
  rcases t with c | c
  · have hd := illegal_detail_range c
    simp [fsrLegal, faultWord_reserved_low, faultWord_reserved_high, Trap.status, Status.code] at *
    omega
  · have hd := precondition_detail_range c
    simp [fsrLegal, faultWord_reserved_low, faultWord_reserved_high, Trap.status, Status.code] at *
    omega

theorem respAgrees_faultWord (t : Trap) (s : State) (opc : Octet) :
    respAgrees (faultWord t.status.code opc t.detail) (some (noResults s t.status)) = true := by
  rcases t with c | c <;> simp [respAgrees, noResults, Trap.status, Status.code]

/-- A fault leaves a legal state. -/
theorem inv_faulted {s : State} (t : Trap) (h : s.params.legal = true) :
    (faulted s t.status t.detail.toNat).Inv := by
  refine ⟨h, ?_, ?_, ?_⟩
  · rw [faulted_fsr]
    exact fsrLegal_faultWord _ _
  · simp [noResults_legal]
  · rw [faulted_fsr]
    exact respAgrees_faultWord _ _ _

/-- The HALTED answer leaves a legal state. -/
theorem inv_halted {s : State} (h1 : s.params.legal = true) (h2 : fsrLegal s.fsr = true)
    (hh : s.halted = true) : (answered s (noResults s .halted)).Inv := by
  refine ⟨h1, h2, ?_, ?_⟩
  · simp [noResults_legal]
  · simpa [respAgrees, noResults, State.halted] using hh

end Sys2Proof.Machine
end

