-- ==== Sys2Proof/Laws/Scaler.lean ====
section
/-! SUPPORT. The ROM's entries and the shared operations of Machine/Scaler.lean. -/

namespace Sys2Proof.Machine

/-! ### ROM entries (20_memory.md R43, R44, R57) -/

theorem five_pow_ne_zero (i : Nat) : (5 ^ i : Nat) ≠ 0 := by positivity

theorem five_pow_ne_two_pow {i : Nat} (k : Nat) (hi : 1 ≤ i) : 5 ^ i ≠ 2 ^ k := by
  intro h
  have h5 : 5 ∣ 2 ^ k := h ▸ dvd_pow_self 5 (by omega)
  have := Nat.prime_five.dvd_of_dvd_pow h5
  omega

theorem p5Entry_lt (b i : Nat) : p5Entry b i < 2 ^ b := by
  unfold p5Entry
  rw [Nat.div_lt_iff_lt_mul (by positivity), Nat.mul_comm (2 ^ b)]
  exact Nat.mul_lt_mul_of_pos_right (lt_two_pow_bitlen _) (by positivity)

theorem le_p5Entry {b : Nat} (i : Nat) (hb : 1 ≤ b) : 2 ^ (b - 1) ≤ p5Entry b i := by
  unfold p5Entry
  rw [Nat.le_div_iff_mul_le (by positivity)]
  have h := two_pow_bitlen_pred_le (five_pow_ne_zero i)
  have hp := bitlen_pos (five_pow_ne_zero i)
  calc 2 ^ (b - 1) * 2 ^ bitlen (5 ^ i) = 2 ^ (bitlen (5 ^ i) - 1) * 2 ^ b := by
        rw [← Nat.pow_add, ← Nat.pow_add]
        congr 1
        omega
    _ ≤ _ := Nat.mul_le_mul_right _ h

theorem p5iEntry_zero (b : Nat) : p5iEntry b 0 = 2 ^ b + 1 := by
  simp [p5iEntry, show bitlen 1 = 1 by decide]

theorem p5iEntry_bounds {b i : Nat} (hi : 1 ≤ i) (hb : 1 ≤ b) :
    2 ^ (b - 1) < p5iEntry b i ∧ p5iEntry b i ≤ 2 ^ b := by
  unfold p5iEntry
  have hpos : 0 < 5 ^ i := by positivity
  have h1 := two_pow_bitlen_pred_le (five_pow_ne_zero i)
  have h2 := lt_two_pow_bitlen (5 ^ i)
  have hp := bitlen_pos (five_pow_ne_zero i)
  have hne := five_pow_ne_two_pow (bitlen (5 ^ i) - 1) hi
  generalize bitlen (5 ^ i) = n at *
  generalize 5 ^ i = v at *
  constructor
  · apply Nat.lt_succ_of_le
    rw [Nat.le_div_iff_mul_le hpos]
    calc 2 ^ (b - 1) * v ≤ 2 ^ (b - 1) * 2 ^ n := Nat.mul_le_mul_left _ h2.le
      _ = 2 ^ (n - 1 + b) := by
        rw [← Nat.pow_add]
        congr 1
        omega
  · apply Nat.succ_le_of_lt
    rw [Nat.div_lt_iff_lt_mul hpos, Nat.pow_add, Nat.mul_comm]
    exact Nat.mul_lt_mul_of_pos_left (lt_of_le_of_ne h1 (Ne.symm hne)) (by positivity)

/-! ### Table reads and multiply-shifts (43_pow5_scaler.md R170 to R173) -/

theorem readTable_outside {t : Table} {f : Format} {s : State} (hh : s.halted = false)
    (hi : tableSize s.params t f ≤ s.ports.opa.toNat) :
    readTable t f s = .next (faulted s .precondition 2) := by
  simp only [readTable, whenRunning_of_running hh, opaU64, if_pos hi, raisePrecondition_eq]
  rfl

theorem readTable_inside {t : Table} {f : Format} {s : State} (hh : s.halted = false)
    (hi : s.ports.opa.toNat < tableSize s.params t f) :
    readTable t f s = .next (answered s (okWords s
      (romRead s.params t f s.ports.opa.toNat % 2 ^ 64 : Nat)
      (romRead s.params t f s.ports.opa.toNat / 2 ^ 64 : Nat) 0 0)) := by
  simp only [readTable, whenRunning_of_running hh, opaU64, if_neg (Nat.not_le.2 hi), complete_eq,
    okResponse_wide]

/-- A right shift is the floor of a rational. -/
theorem shiftRight_eq_of_floor {a j r : Nat} (h : (r : ℤ) = ⌊(a : ℚ) / (2 : ℚ) ^ j⌋) :
    a >>> j = r := by
  rw [show (2 : ℚ) ^ j = ((2 ^ j : Nat) : ℚ) by push_cast; rfl, Rat.floor_natCast_div_natCast] at h
  rw [Nat.shiftRight_eq_div_pow]
  exact_mod_cast h.symm

/-- Everything a multiply-shift answers on a running instance. -/
theorem multiplyShift_cases {t : Table} {f : Format} {s : State} {m i r : Nat}
    (hm : m = s.ports.opa.toNat % 2 ^ f.totalBits) (hi : i = s.ports.opb.toNat)
    (hr : (m * romRead s.params t f i) >>> s.ports.opc.toNat = r) (hh : s.halted = false) :
    (tableSize s.params t f ≤ i → multiplyShift t f s = .next (faulted s .precondition 2)) ∧
    (i < tableSize s.params t f → 2 ^ 64 ≤ r →
      multiplyShift t f s = .next (faulted s .precondition 3)) ∧
    (i < tableSize s.params t f → r < 2 ^ 64 →
      multiplyShift t f s = .next (answered s (okWords s r 0 0 0))) := by
  subst hm hi
  have hv : (multiplicand f s.ports * romRead s.params t f (opbU64 s.ports)) >>>
      opcU64 s.ports = r := by
    rw [multiplicand_eq]
    exact hr
  refine ⟨fun h => ?_, fun h h' => ?_, fun h h' => ?_⟩
  · simp only [multiplyShift, whenRunning_of_running hh, opbU64, if_pos h, raisePrecondition_eq]
    rfl
  · have hin : ¬ tableSize s.params t f ≤ opbU64 s.ports := Nat.not_le.2 h
    simp only [multiplyShift, whenRunning_of_running hh]
    rw [hv, if_neg hin, if_pos h', raisePrecondition_eq]
    rfl
  · have hin : ¬ tableSize s.params t f ≤ opbU64 s.ports := Nat.not_le.2 h
    simp only [multiplyShift, whenRunning_of_running hh]
    rw [hv, if_neg hin, if_neg (Nat.not_le.2 h'), complete_eq, okResponse_of_res0]

/-! ### Logarithm estimates (R174 to R176) -/

theorem estimate_outside {s : State} {hi : Nat} {g : Nat → Nat} (hh : s.halted = false)
    (h : opaS64 s.ports < 0 ∨ (hi : Int) < opaS64 s.ports) :
    estimate hi g s = .next (faulted s .precondition 6) := by
  simp only [estimate, whenRunning_of_running hh]
  rw [if_pos h, raisePrecondition_eq]
  rfl

theorem estimate_inside {s : State} {hi : Nat} {g : Nat → Nat} (hh : s.halted = false)
    (h : 0 ≤ opaS64 s.ports) (h' : opaS64 s.ports ≤ hi) :
    estimate hi g s = .next (answered s (okWords s (g (opaS64 s.ports).toNat) 0 0 0)) := by
  simp only [estimate, whenRunning_of_running hh]
  rw [if_neg (by omega), complete_eq, okResponse_of_res0]

/-- `floorLog10Pow b e` is floor(e × log10 b). -/
theorem floorLog10Pow_spec {b : Nat} (e : Nat) (hb : 1 ≤ b) (hb' : b ≤ 10) :
    10 ^ floorLog10Pow b e ≤ b ^ e ∧ b ^ e < 10 ^ (floorLog10Pow b e + 1) := by
  unfold floorLog10Pow
  constructor
  · exact Nat.findGreatest_spec (P := fun k => 10 ^ k ≤ b ^ e) (m := 0) (Nat.zero_le _)
      (by simpa using Nat.one_le_pow _ _ hb)
  · by_contra h
    have h := Nat.not_lt.1 h
    by_cases hk : Nat.findGreatest (fun k => 10 ^ k ≤ b ^ e) e + 1 ≤ e
    · have := Nat.le_findGreatest (P := fun k => 10 ^ k ≤ b ^ e) hk h
      omega
    · have h3 : 10 ^ (e + 1) ≤ 10 ^ (Nat.findGreatest (fun k => 10 ^ k ≤ b ^ e) e + 1) :=
        Nat.pow_le_pow_right (by norm_num) (by omega)
      have h4 : b ^ e ≤ 10 ^ e := Nat.pow_le_pow_left hb' e
      have h5 : 10 ^ e < 10 ^ (e + 1) := Nat.pow_lt_pow_right (by norm_num) (by omega)
      omega

/-! ### Divisibility (R177 to R179) -/

theorem pow5Factor_spec {v : Nat} (hv : v ≠ 0) (hlt : v < 2 ^ 64) :
    5 ^ pow5Factor v ∣ v ∧ ¬ 5 ^ (pow5Factor v + 1) ∣ v ∧ pow5Factor v ≤ 27 := by
  unfold pow5Factor
  refine ⟨?_, ?_, Nat.findGreatest_le _⟩
  · exact Nat.dvd_of_mod_eq_zero (Nat.findGreatest_spec (P := fun k => v % 5 ^ k = 0) (m := 0)
      (Nat.zero_le _) (by simp [Nat.mod_one]))
  · intro h
    by_cases hk : Nat.findGreatest (fun k => v % 5 ^ k = 0) 27 + 1 ≤ 27
    · have := Nat.le_findGreatest (P := fun k => v % 5 ^ k = 0) hk (Nat.mod_eq_zero_of_dvd h)
      omega
    · have hd : 5 ^ 28 ∣ v := (Nat.pow_dvd_pow 5 (by omega)).trans h
      have := Nat.le_of_dvd (by omega) hd
      norm_num at *
      omega

/-- The capped exponent of `multipleOfPow` loses nothing. -/
theorem multipleOfPow_spec {b limit v : Nat} (p : Nat) (hv : v < b ^ limit) :
    multipleOfPow b limit v p = true ↔ b ^ p ∣ v := by
  unfold multipleOfPow
  rw [decide_eq_true_eq, ← Nat.dvd_iff_mod_eq_zero]
  rcases Nat.le_total p limit with h | h
  · rw [min_eq_left h]
  · rw [min_eq_right h]
    constructor
    · intro hd
      have hz := Nat.eq_zero_of_dvd_of_lt hd hv
      subst hz
      exact Nat.dvd_zero _
    · exact fun hd => (Nat.pow_dvd_pow b h).trans hd

end Sys2Proof.Machine
end

