-- ==== Sys2Proof/Tests/Slice0.lean ====
section
/-! SUPPORT. The model's own tests. Expected results come from the encodings of 30_encoding.md R61 to
R64 and from the vectors V<n> of 95_test_vectors.md, named in each test. The second half holds, for
every statement of Certificates/Slice0/Obligations.lean that has hypotheses, a witness that meets them
together, and for a statement with several clauses a witness of each at the ends of its range. The
block has no memory, so there is no witness about a store. -/

namespace Sys2Proof.Tests

open Sys2Proof Sys2Proof.Machine

/-! ### Helpers -/

/-- Ports with these scalar operands and limb vectors. -/
def sample (w : Word) (a b c : Dword) (x y : List Limb) : Ports :=
  { cmd := w, opa := a, opb := b, opc := c, lx := x, ly := y }

/-- The state after reset with the sample already taken: what `exec` starts from. -/
def ready (a b c : Dword) (x y : List Limb) : State :=
  { State.reset with ports := sample 0 a b c x y }

/-- The state after reset with one command presented. -/
def presented (w : Word) (a b c : Dword) (x y : List Limb) : State :=
  { State.reset with inputs := [.command (sample w a b c x y)] }

/-- A halted instance, after V66 of 95_test_vectors.md, with these inputs to come. -/
def haltedState (l : List Input) : State :=
  { State.reset with fsr := 0x00042405, inputs := l }

/-- STATUS, RES0, RES1, RES2, RFLAGS, LR and FSR after one step. -/
def outcome (s : State) : Option (List Nat × List Nat × Nat) :=
  match step s with
  | .next t => t.resp.map (fun r =>
      ([r.status.code.toNat, r.res0.toNat, r.res1.toNat, r.res2.toNat, r.rflags.toNat],
        r.lr.map BitVec.toNat, t.fsr.toNat))
  | _ => none

/-- The error the decoder names, if it refuses the word. -/
def decodeError (w : Word) : Option IllegalCause :=
  match decode w with
  | .ok _ => none
  | .error c => some c

/-- The command the decoder reads, if any. -/
def decoded (w : Word) : Option Instr :=
  match decode w with
  | .ok i => some i
  | .error _ => none

/-! ### WellFormed: one ill-formed word for each check -/

/-- OPC 0x00 is unassigned (R64, R65). -/
theorem test_wellformed_refuses_unassigned_opcode :
    opcodeAssigned 0x00000000 = false ∧ wellFormedWord 0x00000000 = false ∧
      decodeError 0x00000000 = some .unassignedOpcode := by decide

/-- RSV bit 9 set on DECODE (R63). -/
theorem test_wellformed_refuses_reserved_bits :
    reservedClear 0x00000201 = false ∧ wellFormedWord 0x00000201 = false ∧
      decodeError 0x00000201 = some .reservedBits := by decide

/-- FMT = 1 on LZC32 (R62; V50). -/
theorem test_wellformed_refuses_fmt_not_allowed :
    formatAllowed 0x00000110 = false ∧ wellFormedWord 0x00000110 = false ∧
      decodeError 0x00000110 = some .fmtNotAllowed := by decide

/-- The order of the checks (60_exceptions.md R245): opcode, then reserved bits, then FMT. -/
theorem test_wellformed_check_order :
    decodeError 0xFFFFFFFF = some .unassignedOpcode ∧
      decodeError 0xFFFFFF10 = some .reservedBits := by decide

/-! ### Decode: every constructor by a word written out from R61 and R64 -/

theorem test_decode_decoder :
    decoded 0b00000000000000000000000_0_00000001 = some (.decode .S) ∧
    decoded 0b00000000000000000000000_1_00000001 = some (.decode .D) ∧
    decoded 0b00000000000000000000000_0_00000010 = some (.normalize .S) ∧
    decoded 0b00000000000000000000000_1_00000010 = some (.normalize .D) := by decide

theorem test_decode_bitwidth :
    decoded 0b00000000000000000000000_0_00010000 = some .lzc32 ∧
    decoded 0b00000000000000000000000_0_00010001 = some .lzc64 ∧
    decoded 0b00000000000000000000000_0_00010010 = some .bitlen32 ∧
    decoded 0b00000000000000000000000_0_00010011 = some .bitlen64 := by decide

theorem test_decode_multilimb :
    decoded 0b00000000000000000000000_0_00100000 = some .mul32x64 ∧
    decoded 0b00000000000000000000000_0_00100001 = some .mul64x64 ∧
    decoded 0b00000000000000000000000_0_00100010 = some .ladd ∧
    decoded 0b00000000000000000000000_0_00100011 = some .lmuls ∧
    decoded 0b00000000000000000000000_0_00100100 = some .lmac10 ∧
    decoded 0b00000000000000000000000_0_00100101 = some .lcmp ∧
    decoded 0b00000000000000000000000_0_00100110 = some .lshl := by decide

theorem test_decode_scaler_tables :
    decoded 0b00000000000000000000000_0_00110000 = some (.pow5rd .S) ∧
    decoded 0b00000000000000000000000_1_00110000 = some (.pow5rd .D) ∧
    decoded 0b00000000000000000000000_0_00110001 = some (.pow5invrd .S) ∧
    decoded 0b00000000000000000000000_1_00110001 = some (.pow5invrd .D) ∧
    decoded 0b00000000000000000000000_0_00110010 = some (.mulpow5 .S) ∧
    decoded 0b00000000000000000000000_1_00110010 = some (.mulpow5 .D) ∧
    decoded 0b00000000000000000000000_0_00110011 = some (.mulpow5inv .S) ∧
    decoded 0b00000000000000000000000_1_00110011 = some (.mulpow5inv .D) := by decide

theorem test_decode_scaler_estimates :
    decoded 0b00000000000000000000000_0_00110100 = some .pow5bits ∧
    decoded 0b00000000000000000000000_0_00110101 = some .log10p2 ∧
    decoded 0b00000000000000000000000_0_00110110 = some .log10p5 ∧
    decoded 0b00000000000000000000000_0_00110111 = some .pow5factor ∧
    decoded 0b00000000000000000000000_0_00111000 = some .multpow5 ∧
    decoded 0b00000000000000000000000_0_00111001 = some .multpow2 := by decide

theorem test_decode_encoder :
    decoded 0b00000000000000000000000_0_01000000 = some (.pack .S) ∧
    decoded 0b00000000000000000000000_1_01000000 = some (.pack .D) ∧
    decoded 0b00000000000000000000000_0_01000001 = some (.roundpack .S) ∧
    decoded 0b00000000000000000000000_1_01000001 = some (.roundpack .D) := by decide

theorem test_decode_system :
    decoded 0b00000000000000000000000_0_01010000 = some .rdfsr := by decide

/-- The assembler's mnemonics (R68): the suffix is required on DECODE and forbidden on LCMP. -/
theorem test_mnemonics :
    instrOfMnemonic "DECODE" (some .D) = some (.decode .D) ∧ instrOfMnemonic "DECODE" none = none ∧
      instrOfMnemonic "LCMP" none = some .lcmp ∧ instrOfMnemonic "LCMP" (some .S) = none := by decide

/-- The text between the braces of a limb literal (R68): blanks around a limb as in the rule's form,
none inside one, and an empty limb is none (log 15, log 18). -/
theorem test_limb_literal :
    readLimbs ['1', ',', ' ', '0', 'x', 'A'] = some [1, 10] ∧ readLimbs ['1', ' ', '2'] = none ∧
      readLimbs ['1', ',', ',', '2'] = none := by decide

/-- The host's two entry points on one row: POW5RD.D with its operands 0. -/
theorem test_decodeTableWord :
    decodeTableWord 32 0x130 = some (.pow5rd .D) ∧ decodeTableWord 32 0x150 = none := by decide

/-! ### One step of each command, from the vectors of 95_test_vectors.md -/

/-- V7. -/
theorem test_decode_negative_infinity :
    outcome (presented 0x1 0xFF800000 0 0 [] []) =
      some ([0, 1, 0xFF, 0, 8], [0,0,0,0], 0) := by decide

/-- V3. -/
theorem test_decode_smallest_subnormal :
    outcome (presented 0x1 1 0 0 [] []) =
      some ([0, 0, 0, 1, 2], [0,0,0,0], 0) := by decide

/-- V20. -/
theorem test_normalize_zero_exponent :
    outcome (presented 0x2 0 0 0 [] []) =
      some ([0, 0, 0xFFFFFFFFFFFFFF6B, 0, 1], [0,0,0,0], 0) := by decide

/-- V29. -/
theorem test_normalize_three :
    outcome (presented 0x102 0x4008000000000000 0 0 [] []) =
      some ([0, 0x18000000000000, 0xFFFFFFFFFFFFFFCD, 0, 4], [0,0,0,0], 0) := by decide

/-- V37. -/
theorem test_lzc32_ignores_high_half :
    outcome (presented 0x10 0xFFFFFFFF00000001 0 0 [] []) =
      some ([0, 0x1F, 0, 0, 0], [0,0,0,0], 0) := by decide

/-- V38. -/
theorem test_lzc64_of_zero :
    outcome (presented 0x11 0 0 0 [] []) =
      some ([0, 0x40, 0, 0, 0], [0,0,0,0], 0) := by decide

/-- V46. -/
theorem test_bitlen32_full :
    outcome (presented 0x12 0xFFFFFFFF 0 0 [] []) =
      some ([0, 0x20, 0, 0, 0], [0,0,0,0], 0) := by decide

/-- V49. -/
theorem test_bitlen64 :
    outcome (presented 0x13 0x1FFFFFFFFFFFFF 0 0 [] []) =
      some ([0, 0x35, 0, 0, 0], [0,0,0,0], 0) := by decide

/-- V51. -/
theorem test_mul32x64_maximum :
    outcome (presented 0x20 0xFFFFFFFF 0xFFFFFFFFFFFFFFFF 0 [] []) =
      some ([0, 0xFFFFFFFF00000001, 0xFFFFFFFE, 0, 0], [0,0,0,0], 0) := by decide

/-- V55. -/
theorem test_mul64x64_maximum :
    outcome (presented 0x21 0xFFFFFFFFFFFFFFFF 0xFFFFFFFFFFFFFFFF 0 [] []) =
      some ([0, 1, 0xFFFFFFFFFFFFFFFE, 0, 0], [0,0,0,0], 0) := by decide

/-- V56. -/
theorem test_ladd_wraps :
    outcome (presented 0x22 0 0 0 [0xFFFFFFFF, 0xFFFFFFFF, 0xFFFFFFFF, 0xFFFFFFFF] [1, 0, 0, 0]) =
      some ([0, 0, 0, 0, 1], [0,0,0,0], 0) := by decide

/-- V57. -/
theorem test_ladd_carries :
    outcome (presented 0x22 0 0 0 [0xFFFFFFFF, 0, 0, 0] [1, 0, 0, 0]) =
      some ([0, 0, 0, 0, 0], [0, 1, 0, 0], 0) := by decide

/-- V61. -/
theorem test_lmuls_overflow :
    outcome (presented 0x23 2 0 0 [0, 0, 0, 0x80000000] []) =
      some ([0, 1, 0, 0, 1], [0,0,0,0], 0) := by decide

/-- V62. -/
theorem test_lmuls_ignores_high_half :
    outcome (presented 0x23 0x1FFFFFFFF 0 0 [3, 0, 0, 0] []) =
      some ([0, 0, 0, 0, 0], [0xFFFFFFFD, 2, 0, 0], 0) := by decide

/-- V64. -/
theorem test_lmac10_carry_out :
    outcome (presented 0x24 9 0 0 [0xFFFFFFFF, 0xFFFFFFFF, 0xFFFFFFFF, 0xFFFFFFFF] []) =
      some ([0, 9, 0, 0, 1], [0xFFFFFFFF, 0xFFFFFFFF, 0xFFFFFFFF, 0xFFFFFFFF], 0) := by decide

/-- V66. -/
theorem test_lmac10_digit_range :
    outcome (presented 0x24 0xA 0 0 [7, 0, 0, 0] []) =
      some ([2, 0, 0, 0, 0], [0,0,0,0], 0x00042405) := by decide

/-- V68. -/
theorem test_lcmp_less :
    outcome (presented 0x25 0 0 0 [0xFFFFFFFF, 0, 0, 0] [0, 1, 0, 0]) =
      some ([0, 0xFFFFFFFFFFFFFFFF, 0, 0, 1], [0,0,0,0], 0) := by decide

/-- V69. -/
theorem test_lcmp_equal :
    outcome (presented 0x25 0 0 0 [1, 2, 3, 4] [1, 2, 3, 4]) =
      some ([0, 0, 0, 0, 2], [0,0,0,0], 0) := by decide

/-- V73. -/
theorem test_lshl_overflow :
    outcome (presented 0x26 0x7F 0 0 [3, 0, 0, 0] []) =
      some ([0, 0, 0, 0, 1], [0, 0, 0, 0x80000000], 0) := by decide

/-- V75. -/
theorem test_lshl_shift_range :
    outcome (presented 0x26 0x80 0 0 [1, 0, 0, 0] []) =
      some ([2, 0, 0, 0, 0], [0,0,0,0], 0x00052605) := by decide

/-- V79. -/
theorem test_pow5rd_first_truncated :
    outcome (presented 0x30 0x1B 0 0 [] []) =
      some ([0, 0x19D971E4FE8401E7, 0, 0, 0], [0,0,0,0], 0) := by decide

/-- V84. -/
theorem test_pow5rd_last_d_entry :
    outcome (presented 0x130 0x145 0 0 [] []) =
      some ([0, 0x278E1316E60A4831, 0x18B40A4EEC437C5, 0, 0], [0,0,0,0], 0) := by decide +kernel

/-- V88. -/
theorem test_pow5invrd_last_s_entry :
    outcome (presented 0x31 0x1E 0 0 [] []) =
      some ([0, 0x51212FFBAF0A7E2, 0, 0, 0], [0,0,0,0], 0) := by decide

/-- V90. -/
theorem test_pow5invrd_d :
    outcome (presented 0x131 1 0 0 [] []) =
      some ([0, 0x3333333333333334, 0x333333333333333, 0, 0], [0,0,0,0], 0) := by decide

/-- V93. -/
theorem test_mulpow5_s_reads_low_half :
    outcome (presented 0x32 0x1FFFFFFFF 0 0x3C [] []) =
      some ([0, 0xFFFFFFFF, 0, 0, 0], [0,0,0,0], 0) := by decide

/-- V97. -/
theorem test_mulpow5_index_before_range :
    outcome (presented 0x32 1 0x2F 0 [] []) =
      some ([2, 0, 0, 0, 0], [0,0,0,0], 0x00023205) := by decide

/-- V98. -/
theorem test_mulpow5inv_s :
    outcome (presented 0x33 0x28 1 0x3D [] []) =
      some ([0, 8, 0, 0, 0], [0,0,0,0], 0) := by decide

/-- V99. -/
theorem test_mulpow5inv_d :
    outcome (presented 0x133 0x3E8 3 0x80 [] []) =
      some ([0, 8, 0, 0, 0], [0,0,0,0], 0) := by decide

/-- V104. -/
theorem test_pow5bits_domain_end :
    outcome (presented 0x34 0xDC8 0 0 [] []) =
      some ([0, 0x2000, 0, 0, 0], [0,0,0,0], 0) := by decide +kernel

/-- V106. -/
theorem test_pow5bits_negative :
    outcome (presented 0x34 0xFFFFFFFFFFFFFFFF 0 0 [] []) =
      some ([2, 0, 0, 0, 0], [0,0,0,0], 0x00063405) := by decide

/-- V110. -/
theorem test_log10p2_domain_end :
    outcome (presented 0x35 0x672 0 0 [] []) =
      some ([0, 0x1F0, 0, 0, 0], [0,0,0,0], 0) := by decide +kernel

/-- V115. -/
theorem test_log10p5_domain_end :
    outcome (presented 0x36 0xA3C 0 0 [] []) =
      some ([0, 0x727, 0, 0, 0], [0,0,0,0], 0) := by decide +kernel

/-- V119. -/
theorem test_pow5factor_largest :
    outcome (presented 0x37 0x6765C793FA10079D 0 0 [] []) =
      some ([0, 0x1B, 0, 0, 0], [0,0,0,0], 0) := by decide

/-- V121. -/
theorem test_pow5factor_zero :
    outcome (presented 0x37 0 0 0 [] []) =
      some ([2, 0, 0, 0, 0], [0,0,0,0], 0x00073705) := by decide

/-- V126. -/
theorem test_multpow5_beyond :
    outcome (presented 0x38 0x6765C793FA10079D 0x1C 0 [] []) =
      some ([0, 0, 0, 0, 0], [0,0,0,0], 0) := by decide

/-- V124. -/
theorem test_multpow5_zero :
    outcome (presented 0x38 0 0x64 0 [] []) =
      some ([0, 1, 0, 0, 0], [0,0,0,0], 0) := by decide

/-- V130. -/
theorem test_multpow2_beyond :
    outcome (presented 0x39 0x8000000000000000 0x40 0 [] []) =
      some ([0, 0, 0, 0, 0], [0,0,0,0], 0) := by decide

/-- V131. -/
theorem test_multpow2_zero :
    outcome (presented 0x39 0 0x3E8 0 [] []) =
      some ([0, 1, 0, 0, 0], [0,0,0,0], 0) := by decide

/-- V134. -/
theorem test_pack_reads_one_sign_bit :
    outcome (presented 0x40 0xFE 0x7F 0 [] []) =
      some ([0, 0x3F800000, 0, 0, 0], [0,0,0,0], 0) := by decide

/-- V136. -/
theorem test_pack_field_range :
    outcome (presented 0x40 0 0 0x800000 [] []) =
      some ([2, 0, 0, 0, 0], [0,0,0,0], 0x00084005) := by decide

/-- V142. -/
theorem test_roundpack_tie_with_sticky :
    outcome (presented 0x41 0x1000001 0 1 [] []) =
      some ([0, 0x4B800001, 0, 0, 1], [0,0,0,0], 0) := by decide

/-- V159. -/
theorem test_roundpack_tie_to_infinity :
    outcome (presented 0x141 0x3FFFFFFFFFFFFF 0x3CA 0 [] []) =
      some ([0, 0x7FF0000000000000, 0, 0, 3], [0,0,0,0], 0) := by decide

/-- V50. -/
theorem test_illegal_word_faults :
    outcome (presented 0x110 1 0 0 [] []) =
      some ([1, 0, 0, 0, 0], [0,0,0,0], 0x00031003) := by decide

/-- E1: RDFSR reads FSR while halted and leaves it. -/
theorem test_rdfsr_while_halted :
    outcome (haltedState [.command (sample 0x50 0 0 0 [] [])]) =
      some ([0, 0x00042405, 0, 0, 0], [0, 0, 0, 0], 0x00042405) := by decide

/-- E1: any other word is answered HALTED, an illegal one too. -/
theorem test_halted_answers_halted :
    outcome (haltedState [.command (sample 0x00000000 0 0 0 [] [])]) =
      some ([3, 0, 0, 0, 0], [0, 0, 0, 0], 0x00042405) := by decide

/-! ### Witnesses: the hypotheses of each statement can be met -/

theorem witness_ResetInputClearsFsr :
    (haltedState [.reset]).params.legal = true ∧ (haltedState [.reset]).inputs = .reset :: [] := by
  decide

theorem witness_NoEventChangesNothing :
    (haltedState []).params.legal = true ∧ (haltedState []).inputs = [] := by decide

/-- Both sides of every bound of R8: each legal end, and the first value beyond it. -/
theorem witness_IllegalParametersAreRefused :
    ({ Params.default with
        limbs := 2, p5SizeD := 1, p5iSizeS := 1, p5iSizeD := 1, p5BitsS := 1, p5iBitsS := 127,
        p5BitsD := 128, p5iBitsD := 1, instances := 1 } : Params).legal = true ∧
    ({ Params.default with limbs := 1 } : Params).legal = false ∧
    ({ Params.default with p5SizeS := 48 } : Params).legal = false ∧
    ({ Params.default with p5SizeD := 0 } : Params).legal = false ∧
    ({ Params.default with p5BitsS := 129 } : Params).legal = false ∧
    ({ Params.default with p5iBitsD := 128 } : Params).legal = false ∧
    ({ Params.default with instances := 0 } : Params).legal = false := by decide

theorem witness_StepRunsTheDecodedCommand :
    (presented 0x20 2 3 0 [] []).params.legal = true ∧
    (presented 0x20 2 3 0 [] []).inputs = .command (sample 0x20 2 3 0 [] []) :: [] ∧
    decode (sample 0x20 2 3 0 [] []).cmd = .ok .mul32x64 := ⟨by decide, rfl, rfl⟩

/-- A legal state that is not reset, and its step. -/
theorem witness_StepKeepsTheInvariant :
    (presented 0x24 10 0 0 [] []).Inv ∧ ∃ t, step (presented 0x24 10 0 0 [] []) = .next t :=
  ⟨by decide, _, rfl⟩

theorem witness_DecodeAndEncodeAgree : decode 0x141 = .ok (.roundpack .D) := rfl

/-- One word for each of the three clauses; each fails exactly one check, and the last word fails all
three and falls under the first clause only. -/
theorem witness_IllegalWordsFault :
    (presented 0x00 0 0 0 [] []).halted = false ∧
    (opcodeAssigned 0x00 = false) ∧
    (opcodeAssigned 0x241 = true ∧ reservedClear 0x241 = false) ∧
    (opcodeAssigned 0x150 = true ∧ reservedClear 0x150 = true ∧ formatAllowed 0x150 = false) ∧
    (opcodeAssigned 0xFFFFFFFF = false) := by decide

theorem witness_HaltedInstanceAnswersHalted :
    (haltedState [.command (sample 0x01 0 0 0 [] [])]).params.legal = true ∧
    (haltedState [.command (sample 0x01 0 0 0 [] [])]).halted = true ∧
    (sample 0x01 0 0 0 [] []).cmd ≠ 0x00000050 := by decide

theorem witness_HaltedOperationsDoNotExecute :
    (haltedState []).halted = true ∧ Instr.lcmp ≠ .rdfsr := by decide

/-- RDFSR on a halted instance, its FMT and its first and last reserved bit set on a running one, and
those words on a halted one. -/
theorem witness_RdfsrReturnsFsr :
    (haltedState [.command (sample 0x50 0 0 0 [] [])]).params.legal = true ∧
    (haltedState [.command (sample 0x50 0 0 0 [] [])]).inputs =
      .command (sample 0x50 0 0 0 [] []) :: [] ∧
    (presented 0x150 0 0 0 [] []).params.legal = true ∧
    (presented 0x150 0 0 0 [] []).halted = false ∧
    (presented 0x150 0 0 0 [] []).inputs = .command (sample 0x150 0 0 0 [] []) :: [] ∧
    ((0x250 : Word).extractLsb' 0 8 = 0x50 ∧ (0x250 : Word).extractLsb' 9 23 ≠ 0) ∧
    ((0x80000050 : Word).extractLsb' 0 8 = 0x50 ∧ (0x80000050 : Word).extractLsb' 9 23 ≠ 0) ∧
    (haltedState [.command (sample 0x150 0 0 0 [] [])]).halted = true ∧
    (0x150 : Word) ≠ 0x00000050 := by decide

theorem witness_FirstFaultIsNeverOverwritten :
    (haltedState [.command (sample 0x00 0 0 0 [] [])]).halted = true ∧
    ∃ t, step (haltedState [.command (sample 0x00 0 0 0 [] [])]) = .next t := ⟨by decide, _, rfl⟩

theorem witness_OnlyResetLeavesTheHaltedState :
    (haltedState [.reset]).halted = true ∧
    ∃ t, step (haltedState [.reset]) = .next t ∧ t.halted = false := ⟨by decide, _, rfl, by decide⟩

theorem witness_OnlyAFaultWritesFsr :
    ∃ t, exec .lmac10 (ready 10 0 0 [] []) = .next t ∧ t.fsr ≠ (ready 10 0 0 [] []).fsr :=
  ⟨_, rfl, by decide⟩

theorem witness_NoPartialResults :
    ∃ t r, exec .lmac10 (ready 10 0 0 [] []) = .next t ∧ t.resp = some r ∧ r.status ≠ .ok :=
  ⟨_, _, rfl, rfl, by decide⟩

theorem witness_TotalOperationsNeverFault :
    (ready 0 0 0 [] []).halted = false ∧ Instr.rdfsr ∈
      [Instr.decode .D, .lzc32, .lzc64, .bitlen32, .bitlen64, .mul32x64, .mul64x64, .ladd, .lmuls,
        .lcmp, .multpow5, .multpow2, .roundpack .D, .rdfsr] := by decide

/-- Two samples that differ in every bit LZC32 does not read. -/
theorem witness_OnlyListedOperandBitsMatter :
    agreeOnReads .lzc32 (ready 1 0 0 [] []).ports
      (ready 0xFFFFFFFF00000001 7 7 [1] [1]).ports ∧
    (ready 1 0 0 [] []).params = (ready 0xFFFFFFFF00000001 7 7 [1] [1]).params ∧
    (ready 1 0 0 [] []).halted = (ready 0xFFFFFFFF00000001 7 7 [1] [1]).halted :=
  ⟨⟨by decide, by decide, by decide, fun h => absurd h (by decide), fun h => absurd h (by decide)⟩,
    rfl, rfl⟩

/-- A running state, for the statements whose only other hypotheses name operands. -/
theorem witness_running (a b c : Dword) (x y : List Limb) :
    (ready a b c x y).halted = false ∧ (ready a b c x y).params.legal = true := 
  ⟨(by decide : fsrHalt 0 = false), (by decide : Params.default.legal = true)⟩

/-- A pattern for each of the five classes of DECODE, binary32: zero, subnormal, normal, infinity,
NaN (V2, V4, V5, V7, V8). -/
theorem witness_DecodeSplitsAndClassifies :
    (expField .S 0x80000000 = 0 ∧ fracField .S 0x80000000 = 0) ∧
    (expField .S 0x007FFFFF = 0 ∧ fracField .S 0x007FFFFF ≠ 0) ∧
    (expField .S 0x7F7FFFFF ≠ 0 ∧ expField .S 0x7F7FFFFF ≠ Format.S.emaxf) ∧
    (expField .S 0xFF800000 = Format.S.emaxf ∧ fracField .S 0xFF800000 = 0) ∧
    (expField .S 0x7FC00000 = Format.S.emaxf ∧ fracField .S 0x7FC00000 ≠ 0) := by decide

/-- The last finite exponent field, the first that is not, and the first normal. -/
theorem witness_NormalizeGivesSignificandAndExponent :
    expField .S ((ready 0x7F7FFFFF 0 0 [] []).ports.opa.toNat % 2 ^ 32) ≠ Format.S.emaxf ∧
    expField .S ((ready 0x7F800000 0 0 [] []).ports.opa.toNat % 2 ^ 32) = Format.S.emaxf ∧
    expField .S ((ready 0x007FFFFF 0 0 [] []).ports.opa.toNat % 2 ^ 32) = 0 ∧
    expField .S ((ready 0x00800000 0 0 [] []).ports.opa.toNat % 2 ^ 32) = 1 := by decide

theorem witness_NormalizeIsExact :
    (ready 0x7FEFFFFFFFFFFFFF 0 0 [] []).halted = false ∧
    expField .D ((ready 0x7FEFFFFFFFFFFFFF 0 0 [] []).ports.opa.toNat % 2 ^ 64) ≠
      Format.D.emaxf := by decide

theorem witness_NormalizeLosesNothing :
    expField .S ((ready 0x3F800000 0 0 [] []).ports.opa.toNat % 2 ^ 32) ≠ Format.S.emaxf ∧
    ∃ r, exec (.normalize .S) (ready 0x3F800000 0 0 [] []) =
        .next (answered (ready 0x3F800000 0 0 [] []) r) ∧
      exec (.normalize .S) (ready 0x13F800000 5 0 [] []) =
        .next (answered (ready 0x13F800000 5 0 [] []) r) := ⟨by decide, _, rfl, rfl⟩

/-- The ends of the digit range (V64, V66). -/
theorem witness_Lmac10AppendsADigit :
    (ready 9 0 0 [] []).ports.opa.toNat ≤ 9 ∧ 9 < (ready 10 0 0 [] []).ports.opa.toNat := by decide

/-- The three orders of LCMP (V67 to V69). -/
theorem witness_LcmpComparesWholeValues :
    limbVal 4 [0xFFFFFFFF] < limbVal 4 [0, 1] ∧ limbVal 4 [0, 1] < limbVal 4 [0, 0, 1] ∧
      limbVal 4 [1, 2, 3, 4] = limbVal 4 [1, 2, 3, 4] := by decide

/-- The last legal shift and the first illegal one (V73, V75). -/
theorem witness_LshlShiftsLeft :
    (ready 127 0 0 [3] []).ports.opa.toNat < 32 * (ready 127 0 0 [3] []).params.limbs ∧
    32 * (ready 128 0 0 [3] []).params.limbs ≤ (ready 128 0 0 [3] []).ports.opa.toNat := by decide

theorem witness_RomEntriesAreTheScaledPowers : isBitLength (5 ^ 3) 7 := isBitLength_bitlen 125

theorem witness_RomEntriesFitTheirBitCounts : Params.default.legal = true ∧ 1 ≤ 1 := by decide

/-- The last entry of each table and the first index outside it (V80, V81, V84, V85, V88, V89). -/
theorem witness_TableReadsGiveTheEntry :
    (46 < Params.default.p5Size .S ∧ Params.default.p5Size .S ≤ 47) ∧
    (325 < Params.default.p5Size .D ∧ Params.default.p5Size .D ≤ 326) ∧
    (30 < Params.default.p5iSize .S ∧ Params.default.p5iSize .S ≤ 31) ∧
    (290 < Params.default.p5iSize .D ∧ Params.default.p5iSize .D ≤ 291) := by decide

/-- V92, in range: 3 × 5^1. -/
theorem witness_Mulpow5IsTheExactFloor :
    ((15 : Nat) : ℤ) = ⌊((3 : Nat) : ℚ) * romRead Params.default .p5 .S 1 / (2 : ℚ) ^ 58⌋ ∧
      15 < 2 ^ 64 ∧ 1 < Params.default.p5Size .S := by
  rw [show romRead Params.default .p5 .S 1 = 0x1400000000000000 by decide]
  refine ⟨?_, by norm_num, by decide⟩
  norm_num

/-- V95 and V96: 2^60 fits, 16 × 2^60 is the first value that does not. -/
theorem witness_Mulpow5IsTheExactFloor_range :
    ((2 ^ 64 : Nat) : ℤ) = ⌊((16 : Nat) : ℚ) * romRead Params.default .p5 .S 0 / (2 : ℚ) ^ 0⌋ ∧
    ((15 * 2 ^ 60 : Nat) : ℤ) =
      ⌊((15 : Nat) : ℚ) * romRead Params.default .p5 .S 0 / (2 : ℚ) ^ 0⌋ := by
  rw [show romRead Params.default .p5 .S 0 = 0x1000000000000000 by decide]
  constructor <;> norm_num

/-- V98: 40 / 5. -/
theorem witness_Mulpow5invIsTheExactFloor :
    ((8 : Nat) : ℤ) = ⌊((40 : Nat) : ℚ) * romRead Params.default .p5i .S 1 / (2 : ℚ) ^ 61⌋ ∧
      8 < 2 ^ 64 ∧ 1 < Params.default.p5iSize .S := by
  rw [show romRead Params.default .p5i .S 1 = 0x666666666666667 by decide]
  refine ⟨?_, by norm_num, by decide⟩
  norm_num

/-- The last exact S index, 26 (V78), read with j' = 0. -/
theorem witness_Mulpow5ScalesExactly :
    isBitLength (5 ^ 26) 61 ∧ 61 ≤ Params.default.p5Bits .S ∧ 26 < Params.default.p5Size .S ∧
    (ready 1 26 0 [] []).ports.opc.toNat = 0 + (Params.default.p5Bits .S - 61) ∧
    1 * 5 ^ 26 / 2 ^ 0 < 2 ^ 64 := by
  refine ⟨?_, by decide⟩
  have h := isBitLength_bitlen (5 ^ 26)
  rwa [show bitlen (5 ^ 26) = 61 by decide] at h

/-- The domain ends of POW5BITS, and the first values outside (V104 to V106). -/
theorem witness_Pow5bitsIsTheBitLength :
    (0 ≤ (ready 3528 0 0 [] []).ports.opa.toInt ∧ (ready 3528 0 0 [] []).ports.opa.toInt ≤ 3528) ∧
    3528 < (ready 3529 0 0 [] []).ports.opa.toInt ∧
    (ready 0xFFFFFFFFFFFFFFFF 0 0 [] []).ports.opa.toInt < 0 := by decide

/-- The domain ends of the logarithms (V110, V111, V115, V116). -/
theorem witness_LogarithmsAreExactFloors :
    ((ready 1650 0 0 [] []).ports.opa.toInt ≤ 1650 ∧
      1650 < (ready 1651 0 0 [] []).ports.opa.toInt) ∧
    ((ready 2620 0 0 [] []).ports.opa.toInt ≤ 2620 ∧
      2620 < (ready 2621 0 0 [] []).ports.opa.toInt) := by decide

/-- v = 0 and v = 1. -/
theorem witness_Pow5factorIsTheExponentOfFive :
    (ready 0 0 0 [] []).ports.opa.toNat = 0 ∧ (ready 1 0 0 [] []).ports.opa.toNat ≠ 0 := by decide

/-- Both answers of each test, at p = 27 and 28, and at p = 63 and 64 (V119, V126, V129, V130). -/
theorem witness_DivisibilityTestsAreExact :
    (5 ^ 27 ∣ (0x6765C793FA10079D : Dword).toNat ∧ ¬ 5 ^ 28 ∣ (0x6765C793FA10079D : Dword).toNat) ∧
    (2 ^ 63 ∣ (0x8000000000000000 : Dword).toNat ∧
      ¬ 2 ^ 64 ∣ (0x8000000000000000 : Dword).toNat) := by decide

/-- The largest fields that fit and the first that do not (V132, V135, V136). -/
theorem witness_PackAssemblesTheFields :
    255 < 2 ^ Format.S.exponentBits ∧ 0x7FFFFF < 2 ^ Format.S.mantissaBits ∧
      2 ^ Format.S.exponentBits ≤ 256 ∧ 2 ^ Format.S.mantissaBits ≤ 0x800000 := by decide

/-- DECODE.S of -infinity (V7), then PACK of its three fields. -/
theorem witness_PackUndoesDecode :
    ∃ r, exec (.decode .S) (ready 0xFF800000 0 0 [] []) =
        .next (answered (ready 0xFF800000 0 0 [] []) r) ∧
      (ready 1 0xFF 0 [] []).ports.opa = r.res0 ∧ (ready 1 0xFF 0 [] []).ports.opb = r.res1 ∧
      (ready 1 0xFF 0 [] []).ports.opc = r.res2 := ⟨_, rfl, rfl, rfl, rfl⟩

/-- sig = 0 with sticky and sign set (V150), and sig = 1 with sticky set (V153). -/
theorem witness_RoundpackRoundsToNearestEven :
    ((ready 0 5 3 [] []).halted = false ∧ (ready 0 5 3 [] []).ports.opa = 0 ∧
      true = (ready 0 5 3 [] []).ports.opc.getLsbD 0 ∧
      1 = (ready 0 5 3 [] []).ports.opc.toNat / 2 % 2) ∧
    ((ready 1 0 1 [] []).halted = false ∧ (ready 1 0 1 [] []).ports.opa ≠ 0 ∧
      true = (ready 1 0 1 [] []).ports.opc.getLsbD 0 ∧
      0 = (ready 1 0 1 [] []).ports.opc.toNat / 2 % 2) := by decide

/-- Infinity is above the largest finite pattern. -/
theorem witness_PatternOrderIsValueOrder :
    0x7F7FFFFF < infinityBits .S ∧ infinityBits .S = 0x7F800000 := by decide

/-- NORMALIZE.S of -1.0, then ROUNDPACK of its significand, exponent and sign. -/
theorem witness_RoundpackUndoesNormalize :
    expField .S ((ready 0xBF800000 0 0 [] []).ports.opa.toNat % 2 ^ 32) ≠ Format.S.emaxf ∧
    ∃ r, exec (.normalize .S) (ready 0xBF800000 0 0 [] []) =
        .next (answered (ready 0xBF800000 0 0 [] []) r) ∧
      (ready 0x800000 0xFFFFFFFFFFFFFFE9 2 [] []).ports.opa = r.res0 ∧
      (ready 0x800000 0xFFFFFFFFFFFFFFE9 2 [] []).ports.opb = r.res1 ∧
      (ready 0x800000 0xFFFFFFFFFFFFFFE9 2 [] []).ports.opc = r.res2 * 2 :=
  ⟨by decide, _, rfl, rfl, rfl, rfl⟩

/-- A block of two instances, each with a command to come. -/
def twoUnits : Block :=
  { units := [presented 0x24 10 0 0 [] [], presented 0x10 1 0 0 [] []] }

theorem witness_InstancesStepIndependently : ∃ c, twoUnits.stepAt 0 = .next c := ⟨_, rfl⟩

theorem witness_InstanceStepsCommute :
    (0 : Nat) ≠ 1 ∧ ∃ c d, twoUnits.stepAt 0 = .next c ∧ c.stepAt 1 = .next d :=
  ⟨by decide, _, _, rfl, rfl⟩

theorem witness_AnyInterleavingGivesTheSameInstances :
    ∃ c s, twoUnits.run [1, 0, 1] = .next c ∧ twoUnits.units[1]? = some s := ⟨_, _, rfl, rfl⟩

/-- The ends of HEXBITLEN's range. -/
theorem witness_PseudoInstructionsExpand :
    1 ≤ (1 : Dword).toNat ∧ (15 : Dword).toNat ≤ 15 := by decide

end Sys2Proof.Tests
end

section
/-! The block parameters and the values of limb vectors (00_scope.md R8, R11): which steps are
refused, and the closed form of `limbVal`. -/

namespace Sys2Proof.Machine

/-! ### Which steps are refused -/

/-- `Params.legal` holds exactly inside the bounds of R8. -/
theorem legal_iff_bounds (p : Params) :
    p.legal = true ↔
      2 ≤ p.limbs ∧ p.p5SizeS = 47 ∧ 1 ≤ p.p5SizeD ∧ 1 ≤ p.p5iSizeS ∧ 1 ≤ p.p5iSizeD ∧
      (1 ≤ p.p5BitsS ∧ p.p5BitsS ≤ 128) ∧ (1 ≤ p.p5iBitsS ∧ p.p5iBitsS ≤ 127) ∧
      (1 ≤ p.p5BitsD ∧ p.p5BitsD ≤ 128) ∧ (1 ≤ p.p5iBitsD ∧ p.p5iBitsD ≤ 127) ∧
      1 ≤ p.instances := by
  simp only [Params.legal, Bool.and_eq_true, decide_eq_true_eq, and_assoc]

theorem exec_eq_next (i : Instr) (s : State) : ∃ t, exec i s = .next t := by
  rcases exec_cases i s with ⟨-, -, h⟩ | ⟨r, -, h⟩ | ⟨-, c, h⟩
  · exact ⟨_, h⟩
  · exact ⟨_, h⟩
  · exact ⟨_, h⟩

theorem illegalCommand_eq_next (c : IllegalCause) (s : State) :
    ∃ t, illegalCommand c s = .next t := by
  unfold illegalCommand
  cases hh : s.halted with
  | true => exact ⟨_, whenRunning_of_halted hh⟩
  | false => exact ⟨_, whenRunning_of_running hh⟩

theorem runCommand_eq_next (s : State) : ∃ t, runCommand s = .next t := by
  unfold runCommand
  split
  · exact exec_eq_next _ s
  · exact illegalCommand_eq_next _ s

/-- With legal parameters every step has a next state: no command is refused. -/
theorem step_eq_next_of_legal {s : State} (hl : s.params.legal = true) : ∃ t, step s = .next t := by
  rw [step, if_pos hl]
  split
  · exact ⟨s, rfl⟩
  · exact ⟨_, rfl⟩
  · exact runCommand_eq_next _

theorem step_eq_refused_of_not_legal {s : State} (hl : ¬ s.params.legal = true) :
    step s = .refused .illegalParameters := by
  rw [step, if_neg hl]

theorem step_eq_refused_iff (s : State) :
    step s = .refused .illegalParameters ↔ ¬ s.params.legal = true := by
  refine ⟨fun hr hl => ?_, step_eq_refused_of_not_legal⟩
  obtain ⟨t, ht⟩ := step_eq_next_of_legal hl
  rw [ht] at hr
  cases hr

/-- Settles O4: a step with legal parameters has a next state, so only parameters outside the bounds
of R8 are refused. -/
theorem illegalParametersAreRefused : Obligations.IllegalParametersAreRefused := fun s =>
  (step_eq_refused_iff s).trans (not_congr (legal_iff_bounds s.params))

/-! ### The value of a limb vector -/

/-- The sum over one more limb: limb 0, and the sum over the rest one limb up. -/
theorem sum_limbs_cons (n : Nat) (x : Limb) (xs : List Limb) :
    ∑ i ∈ Finset.range (n + 1), ((x :: xs).getD i 0).toNat * 2 ^ (32 * i) =
      x.toNat + 2 ^ 32 * ∑ i ∈ Finset.range n, (xs.getD i 0).toNat * 2 ^ (32 * i) := by
  have step_up (i : Nat) : ((x :: xs).getD (i + 1) 0).toNat * 2 ^ (32 * (i + 1)) =
      2 ^ 32 * ((xs.getD i 0).toNat * 2 ^ (32 * i)) := by
    rw [List.getD_cons_succ, two_pow_limbs_succ, Nat.mul_left_comm]
  rw [Finset.sum_range_succ', Finset.sum_congr rfl fun i _ => step_up i, ← Finset.mul_sum,
    List.getD_cons_zero, Nat.mul_zero, Nat.pow_zero, Nat.mul_one, add_comm]

/-- Settles O23, by induction on the number of limbs along the recursion of `limbVal`. -/
theorem limbValueIsTheWeightedSum : Obligations.LimbValueIsTheWeightedSum := by
  intro n
  induction n with
  | zero => intro l; rfl
  | succ n ih =>
    intro l
    cases l with
    | nil => simp [limbVal]
    | cons x xs => rw [sum_limbs_cons, limbVal, ih]

end Sys2Proof.Machine
end

section
/-! FSR and the invariant of an instance (10_state.md R23, 60_exceptions.md R240 to R243): the
fields a fault latches, which commands latch them, and that every answer of a step keeps the invariant. -/

namespace Sys2Proof.Machine

/-! ### What a step leaves satisfies the invariant -/

/-- A command that executes leaves a legal state: FSR is kept and STATUS is 0. -/
theorem inv_completed {s : State} {r : Result} (h : s.Inv) (hr : r.rflags.extractLsb' 6 2 = 0) :
    (answered s (okResponse s.params.limbs r)).Inv := by
  obtain ⟨hparams, hfsr, -, -⟩ := h
  exact ⟨hparams, hfsr, okResponse_legal _ hr, rfl⟩

/-- Reset leaves a legal state whatever FSR and the response were. -/
theorem inv_resetInstance {s : State} (hparams : s.params.legal = true) (rest : List Input) :
    (resetInstance s rest).Inv :=
  ⟨hparams, rfl, rfl, rfl⟩

theorem inv_accept {s : State} (h : s.Inv) (p : Ports) (rest : List Input) :
    (s.accept p rest).Inv := h

/-- Everything an illegal word can answer: HALTED, or the illegal-command fault. -/
theorem illegalCommand_cases (c : IllegalCause) (s : State) :
    (s.halted = true ∧ illegalCommand c s = .next (answered s (noResults s .halted))) ∨
    (s.halted = false ∧
      illegalCommand c s = .next (faulted s .illegal (Trap.illegal c).detail.toNat)) := by
  unfold illegalCommand
  cases hh : s.halted with
  | true => exact .inl ⟨rfl, whenRunning_of_halted hh⟩
  | false => exact .inr ⟨rfl, (whenRunning_of_running hh).trans (raise_eq _ s)⟩

theorem exec_keeps_inv {i : Instr} {s t : State} (h : s.Inv) (ht : exec i s = .next t) :
    t.Inv := by
  have ⟨hparams, hfsr, _⟩ := h
  rcases exec_cases i s with ⟨hh, -, he⟩ | ⟨r, hr, he⟩ | ⟨-, c, he⟩ <;>
    obtain rfl := Host.Outcome.next.inj (he.symm.trans ht)
  · exact inv_halted hparams hfsr hh
  · exact inv_completed h hr
  · exact inv_faulted (.precondition c) hparams

theorem illegalCommand_keeps_inv {c : IllegalCause} {s t : State} (h : s.Inv)
    (ht : illegalCommand c s = .next t) : t.Inv := by
  have ⟨hparams, hfsr, _⟩ := h
  rcases illegalCommand_cases c s with ⟨hh, he⟩ | ⟨-, he⟩ <;>
    obtain rfl := Host.Outcome.next.inj (he.symm.trans ht)
  · exact inv_halted hparams hfsr hh
  · exact inv_faulted (.illegal c) hparams

/-- Settles O8: each of the four things a step can do, idling, a reset, a legal command and an
illegal one, leaves a legal state. -/
theorem stepKeepsTheInvariant : Obligations.StepKeepsTheInvariant := by
  intro s t h hstep
  obtain ⟨hparams, ⟨-, rfl⟩ | ⟨rest, -, rfl⟩ | ⟨p, rest, i, -, -, hexec⟩ |
    ⟨p, rest, c, -, -, hill⟩⟩ := step_cases hstep
  · exact h
  · exact inv_resetInstance hparams rest
  · exact exec_keeps_inv (inv_accept h p rest) hexec
  · exact illegalCommand_keeps_inv (inv_accept h p rest) hill

theorem default_legal : Params.default.legal = true := by decide

/-- Settles O7: FSR is 0 and no response is held, so only the default parameters need checking. -/
theorem invariantHoldsAtReset : Obligations.InvariantHoldsAtReset :=
  ⟨default_legal, rfl, rfl, rfl⟩

/-! ### What writes FSR -/

/-- Settles O18: of the answers of `exec_cases`, HALTED and a result keep FSR, so a command that
changes it took a precondition fault. -/
theorem onlyAFaultWritesFsr : Obligations.OnlyAFaultWritesFsr := by
  intro i s t ht hfsr
  rcases exec_cases i s with ⟨-, -, he⟩ | ⟨r, -, he⟩ | ⟨hrun, c, he⟩ <;>
    obtain rfl := Host.Outcome.next.inj (he.symm.trans ht)
  · exact absurd (answered_fsr s _) hfsr
  · exact absurd (answered_fsr s _) hfsr
  · have ⟨hlo, hhi⟩ := precondition_detail_range c
    exact ⟨hrun, _, hlo, hhi, rfl⟩

/-- Settles O21: each field is read off the sum of R243 (`faultWord_extract`). -/
theorem faultWordHasTheFieldsOfFsr : Obligations.FaultWordHasTheFieldsOfFsr := fun c o d =>
  ⟨faultWord_halt c o d, faultWord_cause c o d, faultWord_reserved_low c o d,
    faultWord_opc c o d, faultWord_detail c o d, faultWord_reserved_high c o d⟩

end Sys2Proof.Machine
end

section
/-! The power-of-5 ROM (20_memory.md R43, R44, R57): its entries as rational floors, and their sizes
with legal parameters. -/

namespace Sys2Proof.Machine

/-! ### The entries as floors -/

/-- R43: the model multiplies by 2^B before it divides, so a negative exponent B - bitlen(5^i) needs
no case of its own. -/
theorem p5Entry_eq_floor (b i : Nat) :
    (p5Entry b i : ℤ) = ⌊(5 : ℚ) ^ i * (2 : ℚ) ^ ((b : ℤ) - bitlen (5 ^ i))⌋ := by
  have hquot : (5 : ℚ) ^ i * (2 : ℚ) ^ ((b : ℤ) - bitlen (5 ^ i)) =
      ((5 ^ i * 2 ^ b : Nat) : ℚ) / ((2 ^ bitlen (5 ^ i) : Nat) : ℚ) := by
    rw [zpow_sub₀ two_ne_zero, zpow_natCast, zpow_natCast, ← mul_div_assoc]
    push_cast
    rfl
  rw [hquot, Rat.floor_natCast_div_natCast]
  rfl

/-- R44: bitlen(5^i) is at least 1, so the exponent is a natural number. -/
theorem p5iEntry_eq_floor (b i : Nat) :
    (p5iEntry b i : ℤ) = ⌊(2 : ℚ) ^ (bitlen (5 ^ i) - 1 + b) / (5 : ℚ) ^ i⌋ + 1 := by
  have h := Rat.floor_natCast_div_natCast (2 ^ (bitlen (5 ^ i) - 1 + b)) (5 ^ i)
  push_cast at h
  rw [h, p5iEntry]
  push_cast
  rfl

/-- Settles O36: the entries are the floors at the bit length of 5^i, which `isBitLength` fixes. -/
theorem romEntriesAreTheScaledPowers : Obligations.RomEntriesAreTheScaledPowers := by
  intro p f i len hlen
  obtain rfl := isBitLength_unique hlen
  exact ⟨p5Entry_eq_floor _ i, p5iEntry_eq_floor _ i⟩

/-! ### The sizes of the entries -/

/-- The bounds of R8 on P5_BITS and P5I_BITS, for either format. -/
theorem romBits_bounds_of_legal {p : Params} (f : Format) (hl : p.legal = true) :
    (1 ≤ p.p5Bits f ∧ p.p5Bits f ≤ 128) ∧ 1 ≤ p.p5iBits f ∧ p.p5iBits f ≤ 127 := by
  obtain ⟨-, -, -, -, -, hS, hiS, hD, hiD, -⟩ := (legal_iff_bounds p).1 hl
  cases f with
  | S => exact ⟨hS, hiS⟩
  | D => exact ⟨hD, hiD⟩

/-- Entry 0 of an inverse table is its largest: 2^BI + 1. -/
theorem p5iEntry_le {b : Nat} (i : Nat) (hb : 1 ≤ b) : p5iEntry b i ≤ 2 ^ b + 1 := by
  rcases Nat.eq_zero_or_pos i with rfl | hi
  · exact (p5iEntry_zero b).le
  · exact (p5iEntry_bounds hi hb).2.trans (Nat.le_succ _)

/-- Settles O37: the sizes need only that B and BI are at least 1; the 128-bit bound is B ≤ 128, and
BI ≤ 127 for 2^BI + 1. -/
theorem romEntriesFitTheirBitCounts : Obligations.RomEntriesFitTheirBitCounts := by
  intro p f i hl
  obtain ⟨⟨hb, hb128⟩, hbi, hbi127⟩ := romBits_bounds_of_legal f hl
  refine ⟨le_p5Entry i hb, p5Entry_lt _ i, p5iEntry_zero _,
    fun hi => p5iEntry_bounds hi hbi, ?_, ?_⟩
  · calc p5Entry (p.p5Bits f) i < 2 ^ p.p5Bits f := p5Entry_lt _ i
      _ ≤ 2 ^ 128 := Nat.pow_le_pow_right (by decide) hb128
  · calc p5iEntry (p.p5iBits f) i ≤ 2 ^ p.p5iBits f + 1 := p5iEntry_le i hbi
      _ ≤ 2 ^ 127 + 1 := Nat.add_le_add_right (Nat.pow_le_pow_right (by decide) hbi127) 1
      _ < 2 ^ 128 := by decide

end Sys2Proof.Machine
end

section
/-! Command words (30_encoding.md R61 to R65): what a word the decoder accepts is, row by row, and from
that the encoder as its inverse and the well-formed words as the ones it accepts. -/

namespace Sys2Proof

/-! ### The decoder and the encoder -/

/-- R62 to R64: a word decodes exactly when RSV is 0 and the row of its OPC bears a format or FMT is 0;
it is then that row's operation, with the format FMT selects. -/
theorem decode_eq_ok_iff {w : Word} {i : Instr} :
    decode w = .ok i ↔ rsvField w = 0 ∧
      ((∃ mk, rowOf (opcField w) = some (.bearing mk) ∧ i = mk (formatOfBit (fmtField w))) ∨
       (rowOf (opcField w) = some (.plain i) ∧ fmtField w = false)) := by
  unfold decode
  by_cases hrsv : rsvField w = 0#23
  · rcases rowOf (opcField w) with - | mk | j
    · simp
    · simp [hrsv, eq_comm (a := i)]
    · cases fmtField w <;> simp [hrsv]
  · rcases rowOf (opcField w) with - | row <;> simp [hrsv]

theorem fields_of_decode {w : Word} {i : Instr} (h : decode w = .ok i) :
    rsvField w = 0 ∧ opcField w = opcodeOf i ∧ fmtField w = fmtBitOf i := by
  obtain ⟨hrsv, ⟨mk, hrow, rfl⟩ | ⟨hrow, hfmt⟩⟩ := decode_eq_ok_iff.1 h
  · obtain ⟨_, ⟨⟩, hmk⟩ | ⟨_, ⟨⟩, -⟩ := rowOf_eq_some hrow
    obtain ⟨hopc, hbit⟩ := hmk (fmtField w)
    exact ⟨hrsv, hopc.symm, hbit.symm⟩
  · obtain ⟨_, ⟨⟩, -⟩ | ⟨_, ⟨⟩, hopc, hbit⟩ := rowOf_eq_some hrow
    exact ⟨hrsv, hopc.symm, hfmt.trans hbit.symm⟩

theorem eq_encode_of_decode {w : Word} {i : Instr} (h : decode w = .ok i) : w = encode i := by
  obtain ⟨hrsv, hopc, hfmt⟩ := fields_of_decode h
  rw [word_eq_fields w hrsv, hopc, hfmt, encode]

@[simp] theorem decode_encode (i : Instr) : decode (encode i) = .ok i := by
  cases i with
  | decode f | normalize f | pow5rd f | pow5invrd f | mulpow5 f | mulpow5inv f | pack f
  | roundpack f => cases f <;> rfl
  | lzc32 | lzc64 | bitlen32 | bitlen64 | mul32x64 | mul64x64 | ladd | lmuls | lmac10 | lcmp | lshl
  | pow5bits | log10p2 | log10p5 | pow5factor | multpow5 | multpow2 | rdfsr => rfl

/-- Settles O10: a decoded word has its operation's fields and RSV = 0, and a word with RSV = 0 is its
fields (`word_eq_fields`), so it is the encoded word; each encoded word decodes back. -/
theorem decodeAndEncodeAgree : Obligations.DecodeAndEncodeAgree := by
  intro w i
  constructor
  · exact eq_encode_of_decode
  · rintro rfl
    exact decode_encode i

/-- Settles O9: the seven legal words are encoded words; the other four are evaluated. -/
theorem writtenOutWordsDecode : Obligations.WrittenOutWordsDecode :=
  ⟨decode_encode (.decode .S), decode_encode (.normalize .D), decode_encode .bitlen64,
    decode_encode .lshl, decode_encode (.mulpow5inv .D), decode_encode (.roundpack .S),
    decode_encode .rdfsr, rfl, rfl, rfl, rfl⟩

/-! ### The well-formed words -/

/-- Well-formedness in the decoder's names for the fields of a word. -/
theorem wellFormedWord_iff {w : Word} :
    wellFormedWord w = true ↔
      assignedOpcodes.contains (opcField w) = true ∧ rsvField w = 0 ∧
      (fmtField w = false ∨ formatBearingOpcodes.contains (opcField w) = true) := by
  simp only [wellFormedWord, opcodeAssigned, reservedClear, formatAllowed, Bool.and_eq_true,
    Bool.or_eq_true, beq_iff_eq, Bool.not_eq_true', and_assoc, opcField, rsvField, fmtField,
    BitVec.ofNat_eq_ofNat]

theorem assigned_of_rowOf {opc : Octet} {row : Row} (h : rowOf opc = some row) :
    assignedOpcodes.contains opc = true := by
  by_contra hno
  have hnone := (rowOf_eq_none opc).2 (Bool.eq_false_iff.2 hno)
  rw [h] at hnone
  cases hnone

theorem exists_rowOf_of_assigned {opc : Octet} (h : assignedOpcodes.contains opc = true) :
    ∃ row, rowOf opc = some row := by
  rw [← Option.ne_none_iff_exists', ne_eq, rowOf_eq_none, h]
  decide

theorem wellFormed_of_decode {w : Word} {i : Instr} (h : decode w = .ok i) :
    wellFormedWord w = true := by
  obtain ⟨hrsv, ⟨mk, hrow, -⟩ | ⟨hrow, hfmt⟩⟩ := decode_eq_ok_iff.1 h
  · exact wellFormedWord_iff.2
      ⟨assigned_of_rowOf hrow, hrsv, .inr (isBearing_of_rowOf hrow).symm⟩
  · exact wellFormedWord_iff.2 ⟨assigned_of_rowOf hrow, hrsv, .inl hfmt⟩

theorem exists_decode_of_wellFormed {w : Word} (h : wellFormedWord w = true) :
    ∃ i, decode w = .ok i := by
  obtain ⟨hopc, hrsv, hfmt⟩ := wellFormedWord_iff.1 h
  obtain ⟨mk | i, hrow⟩ := exists_rowOf_of_assigned hopc
  · exact ⟨_, decode_eq_ok_iff.2 ⟨hrsv, .inl ⟨mk, hrow, rfl⟩⟩⟩
  · have hplain : formatBearingOpcodes.contains (opcField w) = false := (isBearing_of_rowOf hrow).symm
    rw [hplain] at hfmt
    exact ⟨i, decode_eq_ok_iff.2 ⟨hrsv, .inr ⟨hrow, hfmt.resolve_right Bool.false_ne_true⟩⟩⟩

/-- Settles O11: the decoder's rows stand under the assigned OPC values, and the format-bearing ones
among them are those of R62. -/
theorem decoderAcceptsExactlyWellFormedWords :
    Obligations.DecoderAcceptsExactlyWellFormedWords := fun _ =>
  ⟨fun ⟨_, h⟩ => wellFormed_of_decode h, exists_decode_of_wellFormed⟩

end Sys2Proof
end

section
/-! The operand bits a command reads (30_encoding.md R66): each operand of a command is the same from
two port samples that agree on the bits listed for it, and so is the command's answer. -/

namespace Sys2Proof.Machine

/-! ### One operand -/

section
variable {p q : Ports}

theorem opaU32_congr (h : p.opa &&& lowBits 32 = q.opa &&& lowBits 32) : opaU32 p = opaU32 q := by
  rw [opaU32_eq, opaU32_eq, toNat_mod_of_and_lowBits (by decide) h]

theorem opaU64_congr (h : p.opa &&& lowBits 64 = q.opa &&& lowBits 64) : opaU64 p = opaU64 q :=
  congrArg BitVec.toNat (eq_of_and_lowBits64 h)

theorem opbU64_congr (h : p.opb &&& lowBits 64 = q.opb &&& lowBits 64) : opbU64 p = opbU64 q :=
  congrArg BitVec.toNat (eq_of_and_lowBits64 h)

theorem opcU64_congr (h : p.opc &&& lowBits 64 = q.opc &&& lowBits 64) : opcU64 p = opcU64 q :=
  congrArg BitVec.toNat (eq_of_and_lowBits64 h)

theorem opaS64_congr (h : p.opa &&& lowBits 64 = q.opa &&& lowBits 64) : opaS64 p = opaS64 q :=
  congrArg signed64 (eq_of_and_lowBits64 h)

theorem opbS64_congr (h : p.opb &&& lowBits 64 = q.opb &&& lowBits 64) : opbS64 p = opbS64 q :=
  congrArg signed64 (eq_of_and_lowBits64 h)

theorem multiplicand_congr {f : Format}
    (h : p.opa &&& lowBits f.totalBits = q.opa &&& lowBits f.totalBits) :
    multiplicand f p = multiplicand f q := by
  cases f with
  | S => exact opaU32_congr h
  | D => exact opaU64_congr h

/-- A bit below the mask is the same in two words with the same masked bits. -/
theorem getLsbD_eq_of_and_lowBits {n k : Nat} (hn : n ≤ 64) (hk : k < n) {a b : Dword}
    (h : a &&& lowBits n = b &&& lowBits n) : a.getLsbD k = b.getLsbD k := by
  have hmod := congrArg (fun v : Nat => v.testBit k) (toNat_mod_of_and_lowBits hn h)
  simpa [Nat.testBit_mod_two_pow, hk, BitVec.getLsbD] using hmod

theorem packSign_congr (h : p.opa &&& lowBits 1 = q.opa &&& lowBits 1) :
    packSign p = packSign q := getLsbD_eq_of_and_lowBits (by decide) (by decide) h

theorem stickyBit_congr (h : p.opc &&& lowBits 2 = q.opc &&& lowBits 2) :
    stickyBit p = stickyBit q := getLsbD_eq_of_and_lowBits (by decide) (by decide) h

theorem roundSign_congr (h : p.opc &&& lowBits 2 = q.opc &&& lowBits 2) :
    roundSign p = roundSign q := getLsbD_eq_of_and_lowBits (by decide) (by decide) h

end

section
variable {s t : State} (hp : s.params = t.params)
include hp

theorem opX_congr (h : s.ports.lx = t.ports.lx) : opX s = opX t := by
  rw [opX, opX, hp, h]

theorem opY_congr (h : s.ports.ly = t.ports.ly) : opY s = opY t := by
  rw [opY, opY, hp, h]

end

/-! ### One command -/

/-- Answers of `s` and `t` alike where the two are running; a halted one answers HALTED (R245). -/
def SameWhenRunning (s t : State) (a b : Answer) : Prop :=
  ∃ x y, a = whenRunning s x ∧ b = whenRunning t y ∧ SameAnswer s t x y

section
variable {s t : State}

theorem sameWhenRunning_complete {r r' : Result} (hr : r = r') :
    SameWhenRunning s t (whenRunning s (complete s r)) (whenRunning t (complete t r')) := by
  rw [hr]
  exact ⟨_, _, rfl, rfl, sameAnswer_complete s t r'⟩

/-- A command with one precondition: the same violation, and the same result where it is kept. -/
theorem sameWhenRunning_guarded {c : PreconditionCause} {v v' : Prop} [Decidable v] [Decidable v']
    {r r' : Result} (hv : v ↔ v') (hr : r = r') :
    SameWhenRunning s t
      (whenRunning s (if v then raisePrecondition c s else complete s r))
      (whenRunning t (if v' then raisePrecondition c t else complete t r')) := by
  rw [hr, if_congr hv rfl rfl]
  exact ⟨_, _, rfl, rfl, sameAnswer_ite v' (sameAnswer_raise s t c) (sameAnswer_complete s t r')⟩

theorem estimate_sameWhenRunning (hi : Nat) (g : Nat → Nat)
    (ha : s.ports.opa &&& lowBits 64 = t.ports.opa &&& lowBits 64) :
    SameWhenRunning s t (estimate hi g s) (estimate hi g t) :=
  sameWhenRunning_guarded (by rw [opaS64_congr ha]) (by rw [opaS64_congr ha])

theorem readTable_sameWhenRunning (tb : Table) (f : Format) (hp : s.params = t.params)
    (ha : s.ports.opa &&& lowBits 64 = t.ports.opa &&& lowBits 64) :
    SameWhenRunning s t (readTable tb f s) (readTable tb f t) :=
  sameWhenRunning_guarded (by rw [hp, opaU64_congr ha]) (by rw [hp, opaU64_congr ha])

theorem multiplyShift_sameWhenRunning (tb : Table) (f : Format) (hp : s.params = t.params)
    (ha : s.ports.opa &&& lowBits f.totalBits = t.ports.opa &&& lowBits f.totalBits)
    (hb : s.ports.opb &&& lowBits 64 = t.ports.opb &&& lowBits 64)
    (hc : s.ports.opc &&& lowBits 64 = t.ports.opc &&& lowBits 64) :
    SameWhenRunning s t (multiplyShift tb f s) (multiplyShift tb f t) := by
  refine ⟨_, _, rfl, rfl, ?_⟩
  rw [hp, multiplicand_congr ha, opbU64_congr hb, opcU64_congr hc]
  exact sameAnswer_ite _ (sameAnswer_raise s t _)
    (sameAnswer_ite _ (sameAnswer_raise s t _) (sameAnswer_complete s t _))

/-- R66, row by row: each operand of a command is fixed by the bits the table lists for it. -/
theorem exec_sameWhenRunning {i : Instr} (hi : i ≠ .rdfsr) (hp : s.params = t.params)
    (hr : agreeOnReads i s.ports t.ports) : SameWhenRunning s t (exec i s) (exec i t) := by
  obtain ⟨ha, hb, hc, hx, hy⟩ := hr
  cases i with
  | decode f => exact sameWhenRunning_complete (by rw [patternFields_congr ha])
  | normalize f =>
    exact sameWhenRunning_guarded (by rw [patternFields_congr ha]) (by rw [patternFields_congr ha])
  | lzc32 => exact sameWhenRunning_complete (by rw [opaU32_congr ha])
  | lzc64 => exact sameWhenRunning_complete (by rw [opaU64_congr ha])
  | bitlen32 => exact sameWhenRunning_complete (by rw [opaU32_congr ha])
  | bitlen64 => exact sameWhenRunning_complete (by rw [opaU64_congr ha])
  | mul32x64 => exact sameWhenRunning_complete (by rw [opaU32_congr ha, opbU64_congr hb])
  | mul64x64 => exact sameWhenRunning_complete (by rw [opaU64_congr ha, opbU64_congr hb])
  | ladd => exact sameWhenRunning_complete (by rw [hp, opX_congr hp (hx rfl), opY_congr hp (hy rfl)])
  | lmuls => exact sameWhenRunning_complete (by rw [hp, opX_congr hp (hx rfl), opaU32_congr ha])
  | lmac10 =>
    exact sameWhenRunning_guarded (by rw [opaU64_congr ha])
      (by rw [hp, opX_congr hp (hx rfl), opaU64_congr ha])
  | lcmp => exact sameWhenRunning_complete (by rw [opX_congr hp (hx rfl), opY_congr hp (hy rfl)])
  | lshl =>
    exact sameWhenRunning_guarded (by rw [hp, opaU64_congr ha])
      (by rw [hp, opX_congr hp (hx rfl), opaU64_congr ha])
  | pow5rd f => exact readTable_sameWhenRunning .p5 f hp ha
  | pow5invrd f => exact readTable_sameWhenRunning .p5i f hp ha
  | mulpow5 f => exact multiplyShift_sameWhenRunning .p5 f hp ha hb hc
  | mulpow5inv f => exact multiplyShift_sameWhenRunning .p5i f hp ha hb hc
  | pow5bits => exact estimate_sameWhenRunning 3528 (fun e => bitlen (5 ^ e)) ha
  | log10p2 => exact estimate_sameWhenRunning _ _ ha
  | log10p5 => exact estimate_sameWhenRunning _ _ ha
  | pow5factor =>
    exact sameWhenRunning_guarded (by rw [opaU64_congr ha]) (by rw [opaU64_congr ha])
  | multpow5 => exact sameWhenRunning_complete (by rw [opaU64_congr ha, opbU64_congr hb])
  | multpow2 => exact sameWhenRunning_complete (by rw [opaU64_congr ha, opbU64_congr hb])
  | pack f =>
    exact sameWhenRunning_guarded (by rw [opbU64_congr hb, opcU64_congr hc])
      (by rw [packSign_congr ha, opbU64_congr hb, opcU64_congr hc])
  | roundpack f =>
    exact sameWhenRunning_complete
      (by rw [opaU64_congr ha, opbS64_congr hb, stickyBit_congr hc, roundSign_congr hc])
  | rdfsr => exact absurd rfl hi

end

/-- Settles O22: every command but RDFSR answers alike where it executes, and the HALTED answers are
alike; RDFSR reads FSR and no operand. -/
theorem onlyListedOperandBitsMatter : Obligations.OnlyListedOperandBitsMatter := by
  intro i s t hp hh hfsr hr
  by_cases hi : i = .rdfsr
  · subst hi
    have hres : execRdfsr s = complete s { res0 := t.fsr.setWidth 64 } := by
      rw [execRdfsr, hfsr rfl]
    exact ⟨_, _, hres, rfl, by rw [setResp_resp, setResp_resp, hp], fun h _ => h⟩
  · obtain ⟨x, y, hs, ht, hxy⟩ := exec_sameWhenRunning hi hp hr
    rw [hs, ht]
    exact whenRunning_sameAnswer hp hh hxy

end Sys2Proof.Machine
end

section
/-! The pseudo-instructions (30_encoding.md R69): each assembles as the mnemonic it stands for. -/

namespace Sys2Proof.Machine

section
variable {n : Nat} {suffix : Option Format} {ops : List (String × Value)}

theorem expand_classify (hkeys : keysAllowed ["a"] ops = true) :
    expand n "CLASSIFY" suffix ops = commandOf n "DECODE" suffix ops := if_pos hkeys

theorem expand_hexbitlen {d : Dword} (hkeys : keysAllowed ["a"] ops = true)
    (hd : scalarOf ops "a" = some d) (hlo : 1 ≤ d.toNat) (hhi : d.toNat ≤ 15) :
    expand n "HEXBITLEN" suffix ops = commandOf n "BITLEN32" suffix ops := by
  simp [expand, hkeys, hd, hlo, hhi]

theorem expand_lmul10 (hkeys : keysAllowed ["x"] ops = true) :
    expand n "LMUL10" suffix ops = commandOf n "LMAC10" suffix (("a", .scalar 0) :: ops) :=
  if_pos hkeys

theorem expand_encode {s m e : Dword} (hkeys : keysAllowed ["s", "m2", "e2"] ops = true)
    (hs : scalarOf ops "s" = some s) (hm : scalarOf ops "m2" = some m)
    (he : scalarOf ops "e2" = some e) :
    expand n "ENCODE" suffix ops = commandOf n "ROUNDPACK" suffix
      [("a", .scalar m), ("b", .scalar e), ("c", .scalar (s * 2))] := by
  simp [expand, hkeys, hs, hm, he]

end

/-- Settles O54: the expansion of each pseudo-instruction, and the ports of the command it names, which
the assembler computes from the operands as they stand. -/
theorem pseudoInstructionsExpand : Obligations.PseudoInstructionsExpand := by
  intro n f v s m e x
  refine ⟨⟨?_, rfl⟩, fun hlo hhi => ⟨?_, rfl⟩, ⟨?_, rfl⟩, ?_, rfl⟩
  · exact expand_classify rfl
  · exact expand_hexbitlen rfl rfl hlo hhi
  · exact expand_lmul10 rfl
  · exact expand_encode rfl rfl rfl rfl

end Sys2Proof.Machine
end

section
/-! DECODE and NORMALIZE (40_decoder.md R100 to R102): the response of each in the fields of the
pattern, NORMALIZE's pair (m2, e2) as the pattern's magnitude, and the order of the magnitudes. -/

namespace Sys2Proof.Machine

theorem formatWord_decode (f : Format) : formatWord 0x01 f = encode (.decode f) := by
  cases f <;> rfl

theorem formatWord_normalize (f : Format) : formatWord 0x02 f = encode (.normalize f) := by
  cases f <;> rfl

/-! ### The answers -/

theorem faulted_halted (s : State) (t : Trap) :
    (faulted s t.status t.detail.toNat).halted = true := by
  rw [State.halted, faulted_fsr, faultWord_halt]

/-- RFLAGS of NORMALIZE on a finite pattern with these fields (R101): the class, and POW2 in bit 5. -/
def normalizedFlags (be fr : Nat) : Nat :=
  if be = 0 then (if fr = 0 then 0x01 else 0x02) else if fr = 0 then 0x24 else 0x04

/-- What NORMALIZE answers on the finite pattern `w` (R101): m2, e2, the sign and the flags. -/
def normalized (f : Format) (s : State) (w : Nat) : Response :=
  okWords s (unitCount f (expField f w) (fracField f w)) (unitExponent f (expField f w))
    (w / 2 ^ (f.totalBits - 1) : Nat) (normalizedFlags (expField f w) (fracField f w))

section
variable {f : Format} {s : State} {w : Nat}

theorem execDecode_of_running (hw : w = s.ports.opa.toNat % 2 ^ f.totalBits)
    (hrun : s.halted = false) :
    exec (.decode f) s = .next (answered s
      (okWords s (w / 2 ^ (f.totalBits - 1) : Nat) (expField f w) (fracField f w)
        (if expField f w = 0 then (if fracField f w = 0 then 0x01 else 0x02)
         else if expField f w = f.emaxf then (if fracField f w = 0 then 0x08 else 0x10)
         else 0x04))) := by
  subst hw
  simp only [exec, execDecode, whenRunning_of_running hrun, complete_eq, decodeFlags_eq,
    patternFields_sign, patternFields_be, patternFields_fr]
  rw [zext64_eq_ofInt (expField _ _), ← sext64_eq_ofInt, okResponse_of_words]

theorem execNormalize_of_nonfinite (hw : w = s.ports.opa.toNat % 2 ^ f.totalBits)
    (hrun : s.halted = false) (hbe : expField f w = f.emaxf) :
    exec (.normalize f) s = .next (faulted s .precondition 1) := by
  subst hw
  rw [← patternFields_be] at hbe
  simp only [exec, execNormalize, whenRunning_of_running hrun, if_pos hbe, raisePrecondition_eq]
  rfl

theorem execNormalize_of_finite (hw : w = s.ports.opa.toNat % 2 ^ f.totalBits)
    (hrun : s.halted = false) (hbe : expField f w ≠ f.emaxf) :
    exec (.normalize f) s = .next (answered s (normalized f s w)) := by
  subst hw
  rw [← patternFields_be] at hbe
  simp only [exec, execNormalize, whenRunning_of_running hrun, if_neg hbe, complete_eq,
    normalizeFlags_eq f _ hbe, okResponse_of_words]
  simp only [significand, exponent2, patternFields_sign, patternFields_be, patternFields_fr]
  rfl

/-- A running instance that answers NORMALIZE without a fault holds a finite pattern: a fault would
have set HALT. -/
theorem finite_of_execNormalize {r : Response} (hw : w = s.ports.opa.toNat % 2 ^ f.totalBits)
    (hrun : s.halted = false) (hr : exec (.normalize f) s = .next (answered s r)) :
    expField f w ≠ f.emaxf ∧ r = normalized f s w := by
  by_cases hbe : expField f w = f.emaxf
  · rw [execNormalize_of_nonfinite hw hrun hbe] at hr
    have hhalt := congrArg State.halted (Host.Outcome.next.inj hr)
    have hset := faulted_halted s (.precondition .nonfinite)
    exact absurd (hset.symm.trans (hhalt.trans hrun)) nofun
  · rw [execNormalize_of_finite hw hrun hbe] at hr
    have hresp := congrArg State.resp (Host.Outcome.next.inj hr)
    exact ⟨hbe, (Option.some.inj hresp).symm⟩

end

/-- Settles O24: the fields by division are those the meaning cuts from OPA. -/
theorem decodeSplitsAndClassifies : Obligations.DecodeSplitsAndClassifies := fun f _ _ hw =>
  ⟨by rw [formatWord_decode, decode_encode], execDecode_of_running hw⟩

/-- Settles O25: the two answers of NORMALIZE, apart at the exponent field of all ones. -/
theorem normalizeGivesSignificandAndExponent :
    Obligations.NormalizeGivesSignificandAndExponent := by
  rintro f s w _ _ hw rfl rfl
  exact ⟨by rw [formatWord_normalize, decode_encode], execNormalize_of_nonfinite hw,
    execNormalize_of_finite hw⟩

/-! ### The words of NORMALIZE as numbers -/

theorem unitExponent_le (f : Format) {be : Nat} (hbe : be < f.emaxf) :
    unitExponent f be ≤ (f.bias : ℤ) - f.mantissaBits := by
  have hemaxf := emaxf_eq f
  have hbias := bias_pos f
  unfold unitExponent Format.etiny
  split <;> omega

/-- The implicit bit is set exactly on a normal. -/
theorem two_pow_le_unitCount_iff (f : Format) {be fr : Nat} (hfr : fr < 2 ^ f.mantissaBits) :
    2 ^ f.mantissaBits ≤ unitCount f be fr ↔ be ≠ 0 := by
  unfold unitCount
  split <;> omega

theorem unitCount_eq_two_pow_iff (f : Format) {be fr : Nat} (hfr : fr < 2 ^ f.mantissaBits) :
    unitCount f be fr = 2 ^ f.mantissaBits ↔ be ≠ 0 ∧ fr = 0 := by
  unfold unitCount
  split <;> omega

theorem normalizedFlags_pow2 (be fr : Nat) :
    (BitVec.ofNat 8 (normalizedFlags be fr)).getLsbD 5 = true ↔ be ≠ 0 ∧ fr = 0 := by
  unfold normalizedFlags
  split_ifs with hbe hfr hfr <;> simp [hbe, hfr]

theorem toNat_ofInt_natCast {n : Nat} (h : n < 2 ^ 64) : (BitVec.ofInt 64 n).toNat = n := by
  rw [BitVec.ofInt_natCast, BitVec.toNat_ofNat, Nat.mod_eq_of_lt h]

section
variable (f : Format) (s : State) (w : Nat)

@[simp] theorem normalized_res0_toNat :
    (normalized f s w).res0.toNat = unitCount f (expField f w) (fracField f w) := by
  have hlt := unitCount_lt f (be := expField f w) (fracField_lt f w)
  have hle : 2 ^ (f.mantissaBits + 1) ≤ 2 ^ 64 :=
    Nat.pow_le_pow_right (by decide) (by cases f <;> decide)
  exact toNat_ofInt_natCast (hlt.trans_le hle)

/-- e2 is far inside the range of a signed port word. -/
theorem normalized_res1_toInt (hbe : expField f w < f.emaxf) :
    (normalized f s w).res1.toInt = unitExponent f (expField f w) := by
  have hlo := etiny_le_unitExponent f (expField f w)
  have hhi := unitExponent_le f hbe
  have hrange : -2 ^ 63 ≤ f.etiny ∧ (f.bias : ℤ) - f.mantissaBits < 2 ^ 63 := by
    cases f <;> decide
  exact toInt_ofInt_of_range (hrange.1.trans hlo) (hhi.trans_lt hrange.2)

theorem normalized_res2_toNat (hw : w < 2 ^ f.totalBits) :
    (normalized f s w).res2.toNat = w / 2 ^ (f.totalBits - 1) := by
  have hle : 2 ^ f.totalBits ≤ 2 ^ 64 :=
    Nat.pow_le_pow_right (by decide) (by cases f <;> decide)
  exact toNat_ofInt_natCast ((Nat.div_le_self _ _).trans_lt (hw.trans_le hle))

theorem normalized_pow2 :
    (normalized f s w).rflags.getLsbD 5 = true ↔ expField f w ≠ 0 ∧ fracField f w = 0 :=
  normalizedFlags_pow2 _ _

end

theorem expField_lt_emaxf {f : Format} {w : Nat} (hbe : expField f w ≠ f.emaxf) :
    expField f w < f.emaxf := (expField_le_emaxf f w).lt_of_ne hbe

/-- Settles O26: m2 counts the units of `magnitude_eq` and e2 is their exponent. -/
theorem normalizeIsExact : Obligations.NormalizeIsExact := by
  intro f s w hw hrun hbe
  have hlt := expField_lt_emaxf hbe
  have hfr := fracField_lt f w
  refine ⟨normalized f s w, execNormalize_of_finite hw hrun hbe, ?_⟩
  rw [normalized_res0_toNat, normalized_res1_toInt f s w hlt]
  exact ⟨(magnitude_eq f w).symm, unitCount_lt f hfr, two_pow_le_unitCount_iff f hfr,
    etiny_le_unitExponent f _, unitExponent_le f hlt,
    (normalized_pow2 f s w).trans (unitCount_eq_two_pow_iff f hfr).symm⟩

/-! ### A pattern from its response -/

/-- m2 says whether the pattern is normal; e2 gives the exponent field of a normal, and m2 then the
fraction field. -/
theorem fields_eq_of_units_eq {f : Format} {be fr be' fr' : Nat} (hfr : fr < 2 ^ f.mantissaBits)
    (hfr' : fr' < 2 ^ f.mantissaBits) (hcount : unitCount f be fr = unitCount f be' fr')
    (hexp : unitExponent f be = unitExponent f be') : be = be' ∧ fr = fr' := by
  have hnormal : be ≠ 0 ↔ be' ≠ 0 := by
    rw [← two_pow_le_unitCount_iff f hfr, hcount, two_pow_le_unitCount_iff f hfr']
  unfold unitCount at hcount
  unfold unitExponent at hexp
  by_cases hbe : be = 0
  · have hbe' : be' = 0 := by tauto
    rw [if_pos hbe, if_pos hbe'] at hcount
    exact ⟨hbe.trans hbe'.symm, hcount⟩
  · rw [if_neg hbe, if_neg (hnormal.1 hbe)] at hcount hexp
    omega

theorem pattern_eq_of_fields_eq {f : Format} {w w' : Nat} (hw : w < 2 ^ f.totalBits)
    (hw' : w' < 2 ^ f.totalBits)
    (hsign : w / 2 ^ (f.totalBits - 1) = w' / 2 ^ (f.totalBits - 1))
    (hbe : expField f w = expField f w') (hfr : fracField f w = fracField f w') : w = w' := by
  rw [← pattern_eq_fields f w hw, hsign, hbe, hfr, pattern_eq_fields f w' hw']

theorem normalized_injective {f : Format} {s t : State} {w w' : Nat} (hw : w < 2 ^ f.totalBits)
    (hw' : w' < 2 ^ f.totalBits) (hbe : expField f w < f.emaxf) (hbe' : expField f w' < f.emaxf)
    (h : normalized f s w = normalized f t w') : w = w' := by
  have hcount := congrArg (fun r : Response => r.res0.toNat) h
  have hexp := congrArg (fun r : Response => r.res1.toInt) h
  have hsign := congrArg (fun r : Response => r.res2.toNat) h
  simp only [normalized_res0_toNat, normalized_res1_toInt _ _ _ hbe,
    normalized_res1_toInt _ _ _ hbe', normalized_res2_toNat _ _ _ hw,
    normalized_res2_toNat _ _ _ hw'] at hcount hexp hsign
  obtain ⟨hbe, hfr⟩ := fields_eq_of_units_eq (fracField_lt f w) (fracField_lt f w') hcount hexp
  exact pattern_eq_of_fields_eq hw hw' hsign hbe hfr

theorem pattern_lt_two_pow (f : Format) (x : Nat) : x % 2 ^ f.totalBits < 2 ^ f.totalBits :=
  Nat.mod_lt _ (Nat.two_pow_pos _)

/-- Settles O27: both instances answer `normalized`, and that response fixes the pattern. -/
theorem normalizeLosesNothing : Obligations.NormalizeLosesNothing := by
  intro f s t r hs ht _ hrs hrt
  obtain ⟨hbe, rfl⟩ := finite_of_execNormalize rfl hs hrs
  obtain ⟨hbe', h⟩ := finite_of_execNormalize rfl ht hrt
  exact normalized_injective (pattern_lt_two_pow f _) (pattern_lt_two_pow f _) (expField_lt_emaxf hbe)
    (expField_lt_emaxf hbe') h

/-! ### The order of the magnitudes -/

theorem fraction_lt_one (f : Format) (w : Nat) : (fracField f w : ℚ) / 2 ^ f.mantissaBits < 1 := by
  rw [div_lt_one (by positivity)]
  exact_mod_cast fracField_lt f w

/-- Every magnitude is below the power of two at which the next exponent field begins. -/
theorem magnitude_lt_two_zpow (f : Format) (w : Nat) :
    magnitude f w < (2 : ℚ) ^ ((expField f w : ℤ) + 1 - f.bias) := by
  have hfrac := fraction_lt_one f w
  unfold magnitude
  split_ifs with hbe
  · rw [hbe, Nat.cast_zero, zero_add]
    exact mul_lt_of_lt_one_left (two_zpow_pos _) hfrac
  · rw [add_sub_right_comm, zpow_add_one₀ two_ne_zero, mul_comm]
    exact mul_lt_mul_of_pos_left (by linarith) (two_zpow_pos _)

theorem two_zpow_le_magnitude {f : Format} {w : Nat} (hbe : expField f w ≠ 0) :
    (2 : ℚ) ^ ((expField f w : ℤ) - f.bias) ≤ magnitude f w := by
  rw [magnitude, if_neg hbe]
  exact le_mul_of_one_le_left (two_zpow_pos _).le (le_add_of_nonneg_right (by positivity))

theorem magnitude_lt_of_expField_lt {f : Format} {a b : Nat} (h : expField f a < expField f b) :
    magnitude f a < magnitude f b :=
  calc magnitude f a < (2 : ℚ) ^ ((expField f a : ℤ) + 1 - f.bias) := magnitude_lt_two_zpow f a
    _ ≤ (2 : ℚ) ^ ((expField f b : ℤ) - f.bias) :=
        zpow_le_zpow_right₀ one_le_two (by omega)
    _ ≤ magnitude f b := two_zpow_le_magnitude (by omega)

theorem magnitude_lt_of_fracField_lt {f : Format} {a b : Nat} (he : expField f a = expField f b)
    (h : fracField f a < fracField f b) : magnitude f a < magnitude f b := by
  have hcast : (fracField f a : ℚ) < fracField f b := by exact_mod_cast h
  unfold magnitude
  rw [he]
  split <;> gcongr

/-- Settles O49: a larger pattern has a larger exponent field, or the same one and a larger fraction
(`fields_lt`). -/
theorem patternOrderIsValueOrder : Obligations.PatternOrderIsValueOrder := by
  intro f a b hab hb
  obtain he | ⟨he, hfr⟩ := fields_lt f hab hb
  · exact magnitude_lt_of_expField_lt he
  · exact magnitude_lt_of_fracField_lt he hfr

end Sys2Proof.Machine
end

section
/-! The bit-width primitives (41_bitwidth.md R120 to R123): RES0 is the bit length of the operand, or the
width less it. -/

namespace Sys2Proof.Machine

theorem bitlen_opa32_le (s : State) : bitlen (s.ports.opa.toNat % 2 ^ 32) ≤ 32 :=
  bitlen_le_of_lt (Nat.mod_lt _ (Nat.two_pow_pos 32))

theorem bitlen_opa64_le (s : State) : bitlen s.ports.opa.toNat ≤ 64 :=
  bitlen_le_of_lt s.ports.opa.isLt

section
variable {s : State}

/-- A running instance whose command drives RES0 only. -/
theorem answer_res0_of_running (hrun : s.halted = false) (v : Nat) :
    whenRunning s (complete s { res0 := zext64 v }) = .next (answered s (okWords s v 0 0 0)) := by
  rw [whenRunning_of_running hrun, complete_eq, okResponse_of_res0]

/-- RES0 is what a width `w` leaves above `n` bits; with n at most w the subtraction of naturals is the
one of integers. -/
theorem answer_width_sub_of_running (hrun : s.halted = false) {w n : Nat} (h : n ≤ w) :
    whenRunning s (complete s { res0 := zext64 (w - n) }) =
      .next (answered s (okWords s (w - n) 0 0 0)) := by
  rw [answer_res0_of_running hrun, Nat.cast_sub h]

theorem execBitlen32_of_running (hrun : s.halted = false) :
    exec .bitlen32 s =
      .next (answered s (okWords s (bitlen (s.ports.opa.toNat % 2 ^ 32)) 0 0 0)) := by
  rw [← opaU32_eq]
  exact answer_res0_of_running hrun _

theorem execBitlen64_of_running (hrun : s.halted = false) :
    exec .bitlen64 s = .next (answered s (okWords s (bitlen s.ports.opa.toNat) 0 0 0)) :=
  answer_res0_of_running hrun _

theorem execLzc32_of_running (hrun : s.halted = false) :
    exec .lzc32 s =
      .next (answered s (okWords s (32 - bitlen (s.ports.opa.toNat % 2 ^ 32)) 0 0 0)) := by
  have hle := bitlen_opa32_le s
  rw [← opaU32_eq] at hle ⊢
  exact answer_width_sub_of_running hrun hle

theorem execLzc64_of_running (hrun : s.halted = false) :
    exec .lzc64 s =
      .next (answered s (okWords s (64 - bitlen s.ports.opa.toNat) 0 0 0)) :=
  answer_width_sub_of_running hrun (bitlen_opa64_le s)

end

/-- Settles O28: both answer the model's `bitlen`, which is the least such n (`isBitLength_bitlen`). -/
theorem bitLengthsAreLeast : Obligations.BitLengthsAreLeast :=
  ⟨decode_encode .bitlen32, decode_encode .bitlen64, fun _ hrun =>
    ⟨⟨_, isBitLength_bitlen _, execBitlen32_of_running hrun⟩,
      ⟨_, isBitLength_bitlen _, execBitlen64_of_running hrun⟩⟩⟩

/-- Settles O29: the bit length is at most the width, so the width less it is never cut off at 0. -/
theorem leadingZerosCompleteTheWidth : Obligations.LeadingZerosCompleteTheWidth :=
  ⟨decode_encode .lzc32, decode_encode .lzc64, fun s hrun =>
    ⟨⟨_, bitlen_opa32_le s, isBitLength_bitlen _, execLzc32_of_running hrun⟩,
      ⟨_, bitlen_opa64_le s, isBitLength_bitlen _, execLzc64_of_running hrun⟩⟩⟩

end Sys2Proof.Machine
end

section
/-! Wide and multi-limb arithmetic (42_multilimb.md R140 to R147): each result is one exact natural
number, stored in two words or in LIMBS limbs, with what does not fit beside it. -/

namespace Sys2Proof.Machine

theorem complete_of_running {s : State} (hrun : s.halted = false) (r : Result) :
    whenRunning s (complete s r) = .next (answered s (okResponse s.params.limbs r)) := by
  rw [whenRunning_of_running hrun, complete_eq]

/-! ### Wide products -/

theorem opaU32_lt (p : Ports) : opaU32 p < 2 ^ 32 := (p.opa.extractLsb' 0 32).isLt

/-- A factor of at most 64 bits times OPB fits in RES0 and RES1. -/
theorem mul_opb_lt {a : Nat} (ha : a < 2 ^ 64) (p : Ports) : a * opbU64 p < 2 ^ 128 := by
  have h := Nat.mul_lt_mul'' ha p.opb.isLt
  rwa [← Nat.pow_add] at h

/-- A running instance that answers a value of up to 128 bits. -/
theorem wide_of_running {s : State} (hrun : s.halted = false) {v : Nat} (hv : v < 2 ^ 128) :
    ∃ lo hi : Dword, lo.toNat + 2 ^ 64 * hi.toNat = v ∧
      whenRunning s (complete s (wideResult v)) =
        .next (answered s (okWords s lo.toNat hi.toNat 0 0)) := by
  obtain ⟨lo, hi, hsum, hlo, hhi⟩ := wide_split hv
  exact ⟨lo, hi, hsum, by rw [complete_of_running hrun, okResponse_wide, hlo, hhi]⟩

/-- Settles O30: both products are below 2^128, so their two words lose nothing (`wide_split`). -/
theorem wideProductsAreExact : Obligations.WideProductsAreExact := by
  refine ⟨decode_encode .mul32x64, decode_encode .mul64x64, fun s hrun => ⟨?_, ?_⟩⟩
  · rw [← opaU32_eq]
    have ha : opaU32 s.ports < 2 ^ 64 := (opaU32_lt s.ports).trans (by decide)
    exact wide_of_running hrun (mul_opb_lt ha s.ports)
  · exact wide_of_running hrun (mul_opb_lt s.ports.opa.isLt s.ports)

/-! ### Limb results -/

/-- What does not fit when `p` is stored in LIMBS limbs: p div 2^W. -/
def carryOut (s : State) (p : Nat) : Nat := p / 2 ^ (32 * s.params.limbs)

/-- `p` in LR, the carry-out limb in RES0 and OVF (R143, R144). -/
def productResponse (s : State) (p : Nat) : Response :=
  okLimbs (carryOut s p) (if carryOut s p = 0 then 0 else 1) (toLimbs s.params.limbs p)

/-- `p` in LR, and only the flag that it did not fit (R142, R146). -/
def wrappedResponse (s : State) (p : Nat) : Response :=
  okLimbs 0 (if carryOut s p = 0 then 0 else 1) (toLimbs s.params.limbs p)

/-- An executed command that drives LR and the flag that its value did not fit: the value reaches 2^W
exactly when something is left above W bits. -/
theorem okResponse_overflow (s : State) (p : Nat) :
    okResponse s.params.limbs { lr := p, rflags := overflowFlag s.params.vectorBits p } =
      wrappedResponse s p := by
  simp only [okResponse, wrappedResponse, carryOut, okLimbs, overflowFlag_eq, Params.vectorBits,
    BitVec.ofNat_eq_ofNat, Nat.div_eq_zero_iff_lt (Nat.two_pow_pos _), ← Nat.not_lt, ite_not]

theorem opX_lt (s : State) : opX s < 2 ^ (32 * s.params.limbs) := limbVal_lt _ _

theorem opY_lt (s : State) : opY s < 2 ^ (32 * s.params.limbs) := limbVal_lt _ _

theorem carryOut_add_le (s : State) : carryOut s (opX s + opY s) ≤ 1 := by
  have hx := opX_lt s
  have hy := opY_lt s
  exact Nat.le_of_lt_succ (Nat.div_lt_of_lt_mul (by omega))

theorem carryOut_mul_lt (s : State) {k b : Nat} (hk : k < b) : carryOut s (opX s * k) < b :=
  Nat.div_lt_of_lt_mul (Nat.mul_lt_mul'' (opX_lt s) hk)

theorem carryOut_append_digit_le (s : State) {d : Nat} (hd : d ≤ 9) :
    carryOut s (opX s * 10 + d) ≤ 9 := by
  have hx := opX_lt s
  exact Nat.le_of_lt_succ (Nat.div_lt_of_lt_mul (by omega))

section
variable {s : State}

/-- A carry of at most one is its own flag. -/
theorem execLadd_of_running (hrun : s.halted = false) :
    exec .ladd s = .next (answered s (okLimbs 0 (carryOut s (opX s + opY s))
      (toLimbs s.params.limbs (opX s + opY s)))) := by
  have hbit : (if carryOut s (opX s + opY s) = 0 then 0 else 1) = carryOut s (opX s + opY s) := by
    have hle := carryOut_add_le s
    split <;> omega
  simp only [exec, execLadd, complete_of_running hrun, okResponse_overflow, wrappedResponse, hbit]

theorem complete_carryResult (s : State) (p : Nat) :
    complete s (carryResult s.params.vectorBits p) = .next (answered s (productResponse s p)) := by
  rw [complete_eq, okResponse_carry]
  rfl

theorem execLmuls_of_running (hrun : s.halted = false) :
    exec .lmuls s = .next (answered s (productResponse s (opX s * opaU32 s.ports))) :=
  (whenRunning_of_running hrun).trans (complete_carryResult s _)

theorem execLmac10_of_digit (hrun : s.halted = false) (hd : s.ports.opa.toNat ≤ 9) :
    exec .lmac10 s =
      .next (answered s (productResponse s (opX s * 10 + s.ports.opa.toNat))) := by
  rw [← complete_carryResult]
  exact (whenRunning_of_running hrun).trans (if_neg hd.not_gt)

theorem execLmac10_of_nondigit (hrun : s.halted = false) (hd : 9 < s.ports.opa.toNat) :
    exec .lmac10 s = .next (faulted s .precondition 4) := by
  calc exec .lmac10 s = raisePrecondition .digitRange s :=
        (whenRunning_of_running hrun).trans (if_pos hd)
    _ = .next (faulted s .precondition 4) := raisePrecondition_eq _ s

theorem execLshl_of_inside (hrun : s.halted = false)
    (hn : s.ports.opa.toNat < 32 * s.params.limbs) :
    exec .lshl s =
      .next (answered s (wrappedResponse s (opX s * 2 ^ s.ports.opa.toNat))) := by
  rw [← okResponse_overflow, ← complete_eq]
  exact (whenRunning_of_running hrun).trans (if_neg hn.not_ge)

theorem execLshl_of_outside (hrun : s.halted = false)
    (hn : 32 * s.params.limbs ≤ s.ports.opa.toNat) :
    exec .lshl s = .next (faulted s .precondition 5) := by
  calc exec .lshl s = raisePrecondition .shiftRange s :=
        (whenRunning_of_running hrun).trans (if_pos hn)
    _ = .next (faulted s .precondition 5) := raisePrecondition_eq _ s

end

/-- Settles O31: the sum of two vectors is below 2 × 2^W, so its carry is one bit. -/
theorem laddAddsWithCarry : Obligations.LaddAddsWithCarry := by
  refine ⟨decode_encode .ladd, ?_⟩
  rintro s _ _ rfl rfl hrun
  exact ⟨_, _, toLimbs_length _ _, carryOut_add_le s, carry_split _ _, execLadd_of_running hrun⟩

/-- Settles O32: X is below 2^W, so the carry-out is below the bound of the constant. -/
theorem lmulsMultipliesWithCarryOut : Obligations.LmulsMultipliesWithCarryOut := by
  refine ⟨decode_encode .lmuls, ?_⟩
  rintro s _ _ rfl rfl hrun
  rw [← opaU32_eq]
  exact ⟨_, _, toLimbs_length _ _, carryOut_mul_lt s (opaU32_lt s.ports), carry_split _ _,
    execLmuls_of_running hrun⟩

/-- Settles O33: with a digit, X × 10 + d is below 10 × 2^W, so the carry-out is a digit too. -/
theorem lmac10AppendsADigit : Obligations.Lmac10AppendsADigit := by
  refine ⟨decode_encode .lmac10, ?_⟩
  rintro s _ _ rfl rfl hrun
  refine ⟨execLmac10_of_nondigit hrun, fun hd => ?_⟩
  exact ⟨_, _, toLimbs_length _ _, carryOut_append_digit_le s hd, carry_split _ _,
    execLmac10_of_digit hrun hd⟩

/-- Settles O35: what is shifted out is the exact product div 2^W. -/
theorem lshlShiftsLeft : Obligations.LshlShiftsLeft := by
  refine ⟨decode_encode .lshl, ?_⟩
  rintro s _ _ rfl rfl hrun
  refine ⟨execLshl_of_outside hrun, fun hn => ?_⟩
  exact ⟨_, _, toLimbs_length _ _, carry_split _ _, execLshl_of_inside hrun hn⟩

/-! ### Comparison -/

/-- RFLAGS of LCMP as a number: one bit for the order (R145). -/
theorem compareFlags_eq (x y : Nat) :
    compareFlags x y = BitVec.ofNat 8 (if x < y then 0x01 else if x = y then 0x02 else 0x04) := by
  unfold compareFlags
  rcases Nat.lt_trichotomy x y with h | h | h
  · simp only [h, h.ne, h.not_gt, decide_true, decide_false, if_true]
    decide
  · simp only [h, Nat.lt_irrefl, decide_true, decide_false, if_true, if_false]
    decide
  · simp only [h, h.ne', h.not_gt, decide_true, decide_false, if_false]
    decide

/-- An executed command that drives a signed RES0 and flags. -/
theorem okResponse_of_signed_res0 (s : State) (c : Int) (fl : Nat) :
    okResponse s.params.limbs { res0 := sext64 c, rflags := BitVec.ofNat 8 fl } =
      okWords s c 0 0 fl := by
  simp [okResponse, okWords, sext64]

theorem execLcmp_of_running {s : State} (hrun : s.halted = false) :
    exec .lcmp s = .next (answered s (okWords s (compareCode (opX s) (opY s)) 0 0
      (if opX s < opY s then 0x01 else if opX s = opY s then 0x02 else 0x04))) := by
  simp only [exec, execLcmp, complete_of_running hrun, compareFlags_eq, okResponse_of_signed_res0]

/-- Settles O34: the three orders exclude each other, so each fixes the code and the flag. -/
theorem lcmpComparesWholeValues : Obligations.LcmpComparesWholeValues := by
  refine ⟨decode_encode .lcmp, ?_⟩
  rintro s _ _ rfl rfl hrun
  rw [execLcmp_of_running hrun, compareCode, opX, opY]
  refine ⟨fun h => ?_, fun h => ?_, fun h => ?_⟩
  · rw [if_pos h, if_pos h]
  · rw [if_neg h.not_lt, if_neg h.not_lt, if_pos h, if_pos h]
  · rw [if_neg h.not_gt, if_neg h.not_gt, if_neg h.ne', if_neg h.ne']

end Sys2Proof.Machine
end

section
/-! The power-of-5 scaler (43_pow5_scaler.md R170 to R180): table reads and multiply-shifts over both
tables, the logarithm estimates, and the divisibility tests, each as exact arithmetic. -/

namespace Sys2Proof.Machine

/-- R61, R62, R64: a format-bearing operation is the row of its OPC with its own FMT bit. -/
theorem formatWord_opcodeOf {i : Instr} {f : Format} (hf : fmtBitOf i = bitOfFormat f) :
    formatWord (opcodeOf i).toNat f = encode i := by
  unfold encode
  rw [hf]
  generalize opcodeOf i = o
  have hlt := o.isLt
  apply BitVec.eq_of_toNat_eq
  cases f with
  | S => simp [formatWord, bitOfFormat]
  | D =>
    have hor : 256 + o.toNat = 256 ||| o.toNat := Nat.two_pow_add_eq_or_of_lt (i := 8) hlt 1
    simp (disch := omega) [formatWord, bitOfFormat, Nat.mod_eq_of_lt, ← hor, Nat.add_comm]

theorem decode_formatWord {i : Instr} {f : Format} (hf : fmtBitOf i = bitOfFormat f) :
    decode (formatWord (opcodeOf i).toNat f) = .ok i := by
  rw [formatWord_opcodeOf hf, decode_encode]

/-! ### Table reads -/

/-- R57: an entry of either table fits in two words. -/
theorem romRead_lt {p : Params} (hl : p.legal = true) (t : Table) (f : Format) (i : Nat) :
    romRead p t f i < 2 ^ 128 := by
  obtain ⟨-, -, -, -, hp5, hp5i⟩ := romEntriesFitTheirBitCounts p f i hl
  cases t with
  | p5 => exact hp5
  | p5i => exact hp5i

theorem readTable_gives_entry {t : Table} {f : Format} {s : State} (hl : s.params.legal = true)
    (hrun : s.halted = false) (hin : s.ports.opa.toNat < tableSize s.params t f) :
    ∃ lo hi : Dword, lo.toNat + 2 ^ 64 * hi.toNat = romRead s.params t f s.ports.opa.toNat ∧
      readTable t f s = .next (answered s (okWords s lo.toNat hi.toNat 0 0)) := by
  obtain ⟨lo, hi, hsum, hlo, hhi⟩ := wide_split (romRead_lt hl t f s.ports.opa.toNat)
  exact ⟨lo, hi, hsum, by rw [readTable_inside hrun hin, hlo, hhi]⟩

/-- Settles O38: both commands are the table read of R170, over P5 and over P5I. -/
theorem tableReadsGiveTheEntry : Obligations.TableReadsGiveTheEntry := by
  rintro f s _ rfl
  exact ⟨decode_formatWord (i := .pow5rd f) rfl, decode_formatWord (i := .pow5invrd f) rfl,
    readTable_outside (t := .p5), readTable_outside (t := .p5i),
    readTable_gives_entry (t := .p5), readTable_gives_entry (t := .p5i)⟩

/-! ### Multiply-shifts -/

theorem mul_shiftRight_eq_of_floor {m e j r : Nat}
    (h : (r : ℤ) = ⌊((m : ℚ) * e) / (2 : ℚ) ^ j⌋) : (m * e) >>> j = r :=
  shiftRight_eq_of_floor (by rwa [Nat.cast_mul])

/-- Settles O39: the shift is the floor, so the answers are those of `multiplyShift_cases` over P5. -/
theorem mulpow5IsTheExactFloor : Obligations.Mulpow5IsTheExactFloor :=
  fun f _ _ _ _ hm hi hr => ⟨decode_formatWord (i := .mulpow5 f) rfl,
    multiplyShift_cases (t := .p5) hm hi (mul_shiftRight_eq_of_floor hr)⟩

/-- Settles O40: as O39, over P5I. -/
theorem mulpow5invIsTheExactFloor : Obligations.Mulpow5invIsTheExactFloor :=
  fun f _ _ _ _ hm hi hr => ⟨decode_formatWord (i := .mulpow5inv f) rfl,
    multiplyShift_cases (t := .p5i) hm hi (mul_shiftRight_eq_of_floor hr)⟩

/-- R43, R180: an entry wide enough for its power of 5 is that power, only shifted. -/
theorem p5Entry_of_bitlen_le {b i : Nat} (h : bitlen (5 ^ i) ≤ b) :
    p5Entry b i = 5 ^ i * 2 ^ (b - bitlen (5 ^ i)) := by
  rw [p5Entry, Nat.mul_div_assoc _ (Nat.pow_dvd_pow 2 h), Nat.pow_div h two_pos]

/-- A shift by `k` more places takes back a factor 2^k. -/
theorem mul_two_pow_shiftRight_add (a j k : Nat) : (a * 2 ^ k) >>> (j + k) = a / 2 ^ j := by
  rw [Nat.shiftRight_eq_div_pow, Nat.pow_add, Nat.mul_div_mul_right _ _ (Nat.two_pow_pos k)]

/-- Settles O41: the entry is 5^i × 2^(B - len), and the shift takes back the 2^(B - len). -/
theorem mulpow5ScalesExactly : Obligations.Mulpow5ScalesExactly := by
  intro f s m i len j' r hm hi hlen hfit hshift hr hlt hin hrun
  obtain rfl := isBitLength_unique hlen
  have hfloor : (m * romRead s.params .p5 f i) >>> s.ports.opc.toNat = r := by
    rw [romRead, p5Entry_of_bitlen_le hfit, ← Nat.mul_assoc, hshift, mul_two_pow_shiftRight_add, hr]
  obtain ⟨-, -, hresult⟩ := multiplyShift_cases (t := .p5) hm hi hfloor hrun
  exact hresult hin hlt

/-! ### Logarithm estimates -/

theorem exec_pow5bits (s : State) :
    exec .pow5bits s = estimate 3528 (fun e => bitlen (5 ^ e)) s := rfl

/-- Settles O42: within the domain the answer is the model's `bitlen`, the least such n. -/
theorem pow5bitsIsTheBitLength : Obligations.Pow5bitsIsTheBitLength := by
  refine ⟨decode_encode .pow5bits, ?_⟩
  rintro s _ rfl hrun
  rw [exec_pow5bits]
  exact ⟨estimate_outside hrun,
    fun hlo hhi => ⟨_, isBitLength_bitlen _, estimate_inside hrun hlo hhi⟩⟩

/-- A logarithm estimate within its domain: floor(e × log10 b) in RES0. -/
theorem estimate_floorLog10Pow {s : State} {b hi : Nat} (hb : 1 ≤ b) (hb' : b ≤ 10)
    (hrun : s.halted = false) (hlo : 0 ≤ s.ports.opa.toInt) (hhi : s.ports.opa.toInt ≤ hi) :
    ∃ k : Nat, 10 ^ k ≤ b ^ s.ports.opa.toInt.toNat ∧ b ^ s.ports.opa.toInt.toNat < 10 ^ (k + 1) ∧
      estimate hi (floorLog10Pow b) s = .next (answered s (okWords s k 0 0 0)) := by
  obtain ⟨hle, hlt⟩ := floorLog10Pow_spec s.ports.opa.toInt.toNat hb hb'
  exact ⟨_, hle, hlt, estimate_inside hrun hlo hhi⟩

/-- Settles O43: one estimate for the bases 2 and 5, each at most 10, over its own domain. -/
theorem logarithmsAreExactFloors : Obligations.LogarithmsAreExactFloors := by
  refine ⟨decode_encode .log10p2, decode_encode .log10p5, ?_⟩
  rintro s _ rfl hrun
  exact ⟨estimate_outside hrun,
    estimate_floorLog10Pow (b := 2) (by decide) (by decide) hrun,
    estimate_outside hrun,
    estimate_floorLog10Pow (b := 5) (by decide) (by decide) hrun⟩

/-! ### Divisibility -/

theorem bit_multipleOfPow {b limit v : Nat} (p : Nat) (hv : v < b ^ limit) :
    bit (multipleOfPow b limit v p) = if b ^ p ∣ v then 1 else 0 := by
  simp only [bit, multipleOfPow_spec p hv]

section
variable {s : State}

theorem execPow5factor_of_zero (hrun : s.halted = false) (hv : s.ports.opa.toNat = 0) :
    exec .pow5factor s = .next (faulted s .precondition 7) := by
  calc exec .pow5factor s = raisePrecondition .zeroArg s :=
        (whenRunning_of_running hrun).trans (if_pos hv)
    _ = .next (faulted s .precondition 7) := raisePrecondition_eq _ s

theorem execPow5factor_of_ne_zero (hrun : s.halted = false) (hv : s.ports.opa.toNat ≠ 0) :
    exec .pow5factor s =
      .next (answered s (okWords s (pow5Factor s.ports.opa.toNat) 0 0 0)) := by
  rw [← okResponse_of_res0, ← complete_eq]
  exact (whenRunning_of_running hrun).trans (if_neg hv)

/-- A divisibility test on a running instance, for an operand the cap of the exponent allows. -/
theorem divisibilityTest_cases (hrun : s.halted = false) {b limit v : Nat} (p : Nat)
    (hv : v < b ^ limit) :
    (b ^ p ∣ v → whenRunning s (complete s { res0 := zext64 (bit (multipleOfPow b limit v p)) }) =
      .next (answered s (okWords s 1 0 0 0))) ∧
    (¬ b ^ p ∣ v → whenRunning s (complete s { res0 := zext64 (bit (multipleOfPow b limit v p)) }) =
      .next (answered s (okWords s 0 0 0 0))) := by
  rw [answer_res0_of_running hrun, bit_multipleOfPow p hv]
  exact ⟨fun h => by rw [if_pos h, Nat.cast_one], fun h => by rw [if_neg h, Nat.cast_zero]⟩

end

/-- Settles O44: 5^28 is above 2^64, so the search up to 27 finds the exponent (`pow5Factor_spec`). -/
theorem pow5factorIsTheExponentOfFive : Obligations.Pow5factorIsTheExponentOfFive := by
  refine ⟨decode_encode .pow5factor, ?_⟩
  rintro s _ rfl hrun
  refine ⟨execPow5factor_of_zero hrun, fun hv => ?_⟩
  obtain ⟨hdvd, hmax, hle⟩ := pow5Factor_spec hv s.ports.opa.isLt
  exact ⟨_, hdvd, hmax, hle, execPow5factor_of_ne_zero hrun hv⟩

/-- Settles O45: OPA is below 5^28 and below 2^64, where the capped tests lose nothing. -/
theorem divisibilityTestsAreExact : Obligations.DivisibilityTestsAreExact := by
  refine ⟨decode_encode .multpow5, decode_encode .multpow2, ?_⟩
  rintro s _ p rfl rfl hrun
  have hfive : s.ports.opa.toNat < 5 ^ 28 := s.ports.opa.isLt.trans (by decide)
  obtain ⟨hdvd5, hndvd5⟩ := divisibilityTest_cases hrun s.ports.opb.toNat hfive
  obtain ⟨hdvd2, hndvd2⟩ := divisibilityTest_cases hrun s.ports.opb.toNat s.ports.opa.isLt
  exact ⟨hdvd5, hndvd5, hdvd2, hndvd2⟩

end Sys2Proof.Machine
end

section
/-! PACK and ROUNDPACK (44_encoder.md R200 to R204): PACK as the sum of its fields, ROUNDPACK as the
nearest pattern to sig × 2^exp, and each as the inverse of its decoder command. -/

namespace Sys2Proof.Machine

/-! ### PACK -/

theorem sign_lt_two {f : Format} {w : Nat} (hw : w < 2 ^ f.totalBits) :
    w / 2 ^ (f.totalBits - 1) < 2 :=
  Nat.div_lt_of_lt_mul (hw.trans_eq (by cases f <;> rfl))

/-- The words DECODE answers are the fields themselves: each is at most the pattern, which fits in a
port word. -/
theorem fields_of_execDecode {f : Format} {s : State} {r : Response} {w : Nat}
    (hw : w = s.ports.opa.toNat % 2 ^ f.totalBits) (hrun : s.halted = false)
    (hr : exec (.decode f) s = .next (answered s r)) :
    r.res0.toNat = w / 2 ^ (f.totalBits - 1) ∧ r.res1.toNat = expField f w ∧
      r.res2.toNat = fracField f w := by
  have hlt : w < 2 ^ 64 := by
    rw [hw]
    exact (Nat.mod_le _ _).trans_lt s.ports.opa.isLt
  rw [execDecode_of_running hw hrun] at hr
  obtain rfl := Option.some.inj (congrArg State.resp (Host.Outcome.next.inj hr))
  refine ⟨toNat_ofInt_natCast ?_, toNat_ofInt_natCast ?_, toNat_ofInt_natCast ?_⟩
  · exact (Nat.div_le_self _ _).trans_lt hlt
  · exact ((Nat.mod_le _ _).trans (Nat.div_le_self _ _)).trans_lt hlt
  · exact (Nat.mod_le _ _).trans_lt hlt

section
variable {f : Format} {s : State} (hrun : s.halted = false)
include hrun

theorem execPack_of_wide
    (h : 2 ^ f.exponentBits ≤ s.ports.opb.toNat ∨ 2 ^ f.mantissaBits ≤ s.ports.opc.toNat) :
    exec (.pack f) s = .next (faulted s .precondition 8) := by
  calc exec (.pack f) s = raisePrecondition .fieldRange s :=
        (whenRunning_of_running hrun).trans (if_pos h)
    _ = .next (faulted s .precondition 8) := raisePrecondition_eq _ s

theorem execPack_of_fits (hbe : s.ports.opb.toNat < 2 ^ f.exponentBits)
    (hfr : s.ports.opc.toNat < 2 ^ f.mantissaBits) :
    exec (.pack f) s = .next (answered s (okWords s
      (s.ports.opa.toNat % 2 * 2 ^ (f.totalBits - 1) + s.ports.opb.toNat * 2 ^ f.mantissaBits +
        s.ports.opc.toNat : Nat) 0 0 0)) := by
  rw [← packSign_eq, ← okResponse_of_res0, ← complete_eq]
  exact (whenRunning_of_running hrun).trans (if_neg (not_or.2 ⟨hbe.not_ge, hfr.not_ge⟩))

end

/-- Settles O46: the two answers of PACK, apart where a field reaches its width. -/
theorem packAssemblesTheFields : Obligations.PackAssemblesTheFields := by
  rintro f s _ _ rfl rfl
  exact ⟨decode_formatWord (i := .pack f) rfl, execPack_of_wide, execPack_of_fits⟩

/-- Settles O47: the fields of a pattern fit their widths, and together they are the pattern
(`pattern_eq_fields`). -/
theorem packUndoesDecode : Obligations.PackUndoesDecode := by
  intro f s t r hs ht hr ha hb hc
  have hw := pattern_lt_two_pow f s.ports.opa.toNat
  obtain ⟨hsign, hbe, hfr⟩ := fields_of_execDecode rfl hs hr
  rw [← ha] at hsign
  rw [← hb] at hbe
  rw [← hc] at hfr
  rw [execPack_of_fits ht (hbe.trans_lt (expField_lt f _)) (hfr.trans_lt (fracField_lt f _)), hsign,
    hbe, hfr, Nat.mod_eq_of_lt (sign_lt_two hw), pattern_eq_fields f _ hw]

/-! ### The rounded significand -/

/-- sig × 2^exp, the exact value ROUNDPACK rounds (R201). -/
def exactValue (sig : Nat) (exp : ℤ) : ℚ := sig * (2 : ℚ) ^ exp

section
variable {sig : Nat} {exp q : ℤ} {sticky : Bool}

theorem roundSignificand_le {k : Nat} (h : exactValue sig exp ≤ k * (2 : ℚ) ^ q) :
    (roundSignificand sig exp q sticky).1 ≤ k := by
  obtain ⟨hlo, -⟩ := roundSignificand_spec sig exp q sticky _ rfl
  rw [exactValue] at h
  have hunits : 2 * ((roundSignificand sig exp q sticky).1 : ℚ) - 1 ≤ 2 * k :=
    le_of_mul_le_mul_right (by linarith) (two_zpow_pos q)
  have hcast : 2 * (roundSignificand sig exp q sticky).1 ≤ 2 * k + 1 := by
    exact_mod_cast sub_le_iff_le_add.1 hunits
  omega

theorem le_roundSignificand {k : Nat} (h : k * (2 : ℚ) ^ q ≤ exactValue sig exp) :
    k ≤ (roundSignificand sig exp q sticky).1 := by
  obtain ⟨-, -, hhi, -⟩ := roundSignificand_spec sig exp q sticky _ rfl
  rw [exactValue] at h
  have hunits : 2 * (k : ℚ) ≤ 2 * (roundSignificand sig exp q sticky).1 + 1 :=
    le_of_mul_le_mul_right (by linarith) (two_zpow_pos q)
  have hcast : 2 * k ≤ 2 * (roundSignificand sig exp q sticky).1 + 1 := by exact_mod_cast hunits
  omega

/-- Below half a unit all is lost. -/
theorem roundSignificand_of_tiny (h0 : sig ≠ 0) (h : 2 * exactValue sig exp < (2 : ℚ) ^ q) :
    roundSignificand sig exp q sticky = (0, true) := by
  obtain ⟨hlo, -, -, -, hix⟩ := roundSignificand_spec sig exp q sticky _ rfl
  have hunits : 2 * ((roundSignificand sig exp q sticky).1 : ℚ) - 1 < 1 :=
    lt_of_mul_lt_mul_right (by rw [one_mul]; exact hlo.trans_lt h) (two_zpow_pos q).le
  have hlt : ((roundSignificand sig exp q sticky).1 : ℚ) < 1 := by linarith
  have hzero : (roundSignificand sig exp q sticky).1 = 0 :=
    Nat.lt_one_iff.1 (by exact_mod_cast hlt)
  refine Prod.ext hzero (hix.2 (.inl ?_))
  rw [hzero, Nat.cast_zero, zero_mul]
  positivity

end

/-! ### The unit of the result -/

section
variable (f : Format) (sig : Nat) (exp : ℤ)

theorem etiny_le_ulpExponent : f.etiny ≤ ulpExponent f sig exp := by
  unfold ulpExponent Format.etiny Format.emin
  omega

theorem ulpExponent_eq_or : ulpExponent f sig exp = f.etiny ∨
    ulpExponent f sig exp + f.mantissaBits = exp + bitlen sig - 1 := by
  unfold ulpExponent Format.etiny Format.emin
  omega

end

section
variable {f : Format} {sig : Nat} {exp : ℤ}

theorem two_pow_units (k : Nat) (q : ℤ) : ((2 ^ k : Nat) : ℚ) * (2 : ℚ) ^ q = (2 : ℚ) ^ (q + k) := by
  rw [zpow_add₀ two_ne_zero, zpow_natCast, mul_comm, Nat.cast_pow, Nat.cast_ofNat]

theorem two_zpow_le_exactValue (h0 : sig ≠ 0) (hq : ulpExponent f sig exp ≠ f.etiny) :
    (2 : ℚ) ^ (ulpExponent f sig exp + f.mantissaBits) ≤ exactValue sig exp := by
  rw [(ulpExponent_eq_or f sig exp).resolve_left hq]
  exact (sig_bounds exp h0).1

/-- The unit is chosen so that the significand keeps at most M + 1 bits, or is rounded up to 2^(M+1). -/
theorem roundSignificand_le_two_pow (h0 : sig ≠ 0) (sticky : Bool) :
    (roundSignificand sig exp (ulpExponent f sig exp) sticky).1 ≤ 2 ^ (f.mantissaBits + 1) := by
  apply roundSignificand_le
  rw [two_pow_units]
  refine (sig_bounds exp h0).2.le.trans (zpow_le_zpow_right₀ one_le_two ?_)
  unfold ulpExponent
  omega

theorem two_pow_le_roundSignificand (h0 : sig ≠ 0) (hq : ulpExponent f sig exp ≠ f.etiny)
    (sticky : Bool) :
    2 ^ f.mantissaBits ≤ (roundSignificand sig exp (ulpExponent f sig exp) sticky).1 := by
  apply le_roundSignificand
  rw [two_pow_units]
  exact two_zpow_le_exactValue h0 hq

end

/-! ### The clamp of the exponent -/

/-- The procedure of R203 for sig ≠ 0, without the clamp of exp. -/
def roundUnclamped (f : Format) (sig : Nat) (exp : ℤ) (sticky sign : Bool) : Result :=
  let q := ulpExponent f sig exp
  let r := roundSignificand sig exp q sticky
  encodeRounded f sign r.1 q r.2

theorem roundPack_eq_roundUnclamped {sig : Nat} (h0 : sig ≠ 0) (f : Format) (exp : ℤ)
    (sticky sign : Bool) :
    roundPack f sig exp sticky sign = roundUnclamped f sig (clampExponent f exp) sticky sign :=
  if_neg h0

theorem encodeRounded_of_overflow {f : Format} {n : Nat} {q : ℤ} (hn : 2 ^ f.mantissaBits ≤ n)
    (hq : (f.bias : ℤ) < q + f.mantissaBits) (sign ix : Bool) :
    encodeRounded f sign n q ix =
      { res0 := assemble f sign f.emaxf 0, rflags := roundFlags true true false } := by
  have hemaxf := emaxf_eq f
  unfold encodeRounded
  dsimp only
  by_cases hcarry : n = 2 ^ (f.mantissaBits + 1)
  · rw [if_pos hcarry, if_pos hcarry, if_pos le_rfl, if_pos (by omega)]
  · rw [if_neg hcarry, if_neg hcarry, if_pos hn, if_pos (by omega)]

section
variable {f : Format} {sig : Nat} {exp : ℤ} (sticky sign : Bool)

theorem roundUnclamped_of_large (h0 : sig ≠ 0) (h : (f.bias : ℤ) + 1 ≤ exp) :
    roundUnclamped f sig exp sticky sign =
      { res0 := assemble f sign f.emaxf 0, rflags := roundFlags true true false } := by
  have hpos := bitlen_pos h0
  have hbias := bias_pos f
  have hq : (f.bias : ℤ) < ulpExponent f sig exp + f.mantissaBits := by
    unfold ulpExponent
    omega
  refine encodeRounded_of_overflow (two_pow_le_roundSignificand h0 ?_ sticky) hq sign _
  unfold Format.etiny
  omega

theorem roundUnclamped_of_tiny (h0 : sig ≠ 0) (hsig : sig < 2 ^ 64) (h : exp ≤ f.etiny - 66) :
    roundUnclamped f sig exp sticky sign = encodeRounded f sign 0 f.etiny true := by
  have hlen := bitlen_le_of_lt hsig
  have hq : ulpExponent f sig exp = f.etiny := by
    unfold ulpExponent Format.etiny Format.emin at *
    omega
  have htiny : 2 * exactValue sig exp < (2 : ℚ) ^ f.etiny :=
    calc 2 * exactValue sig exp < 2 * (2 : ℚ) ^ (exp + bitlen sig) :=
          mul_lt_mul_of_pos_left (sig_bounds exp h0).2 two_pos
      _ = (2 : ℚ) ^ (exp + bitlen sig + 1) := by rw [zpow_add_one₀ two_ne_zero, mul_comm]
      _ ≤ (2 : ℚ) ^ f.etiny := zpow_le_zpow_right₀ one_le_two (by omega)
  simp only [roundUnclamped, hq, roundSignificand_of_tiny h0 htiny]

/-- R203: the clamp changes no result. Above it every significand overflows, below it every one is
rounded to 0. -/
theorem roundUnclamped_clampExponent (h0 : sig ≠ 0) (hsig : sig < 2 ^ 64) :
    roundUnclamped f sig (clampExponent f exp) sticky sign =
      roundUnclamped f sig exp sticky sign := by
  have hetiny : f.etiny - 66 ≤ (f.bias : ℤ) + 1 := by
    unfold Format.etiny
    omega
  by_cases hlow : exp ≤ f.etiny - 66
  · rw [roundUnclamped_of_tiny sticky sign h0 hsig hlow,
      roundUnclamped_of_tiny sticky sign h0 hsig (by unfold clampExponent; omega)]
  by_cases hhigh : (f.bias : ℤ) + 1 ≤ exp
  · rw [roundUnclamped_of_large sticky sign h0 hhigh,
      roundUnclamped_of_large sticky sign h0 (by unfold clampExponent; omega)]
  · have hin : clampExponent f exp = exp := by
      unfold clampExponent
      omega
    rw [hin]

end

/-! ### The nearest pattern -/

/-- R201, R202: of the patterns up to infinity none is nearer to `v`, or to a value just above it with
the sticky bit set, than `w` is; and `w` is the even one of two equally near. -/
def IsNearest (f : Format) (v : ℚ) (sticky : Bool) (w : Nat) : Prop :=
  (∀ c, c ≤ infinityBits f → magnitude f c < magnitude f w →
    magnitude f c + magnitude f w < 2 * v ∨
      (magnitude f c + magnitude f w = 2 * v ∧ (sticky = true ∨ w % 2 = 0))) ∧
  (∀ c, c ≤ infinityBits f → magnitude f w < magnitude f c →
    2 * v < magnitude f c + magnitude f w ∨
      (2 * v = magnitude f c + magnitude f w ∧ sticky = false ∧ w % 2 = 0))

theorem magnitude_le_magnitude {f : Format} {a b : Nat} (hab : a ≤ b) (hb : b ≤ infinityBits f) :
    magnitude f a ≤ magnitude f b := by
  obtain rfl | hlt := hab.eq_or_lt
  · exact le_rfl
  · exact (patternOrderIsValueOrder f a b hlt hb).le

/-- No candidate is above infinity, and from 2^(BIAS+1) on infinity is nearer than any below it. -/
theorem isNearest_infinity {f : Format} {v : ℚ} (hv : (2 : ℚ) ^ ((f.bias : ℤ) + 1) ≤ v)
    (sticky : Bool) : IsNearest f v sticky (infinityBits f) := by
  constructor
  · intro c _ hlt
    rw [magnitude_infinity] at *
    exact .inl (by linarith)
  · intro c hc hlt
    exact absurd (magnitude_le_magnitude hc le_rfl) hlt.not_ge

theorem add_one_units_le {m n : Nat} {q : ℤ} (h : m * (2 : ℚ) ^ q < n * (2 : ℚ) ^ q) :
    ((m : ℚ) + 1) * (2 : ℚ) ^ q ≤ n * (2 : ℚ) ^ q := by
  have hlt : m < n := by exact_mod_cast lt_of_mul_lt_mul_right h (two_zpow_pos q).le
  exact mul_le_mul_of_nonneg_right (by exact_mod_cast hlt) (two_zpow_pos q).le

section
variable {f : Format} {sig : Nat} {exp q : ℤ} {sticky : Bool} {c n : Nat}

/-- A candidate above `n` units is at least one unit above. -/
theorem units_above (hq : f.etiny ≤ q) (hunit : q = f.etiny ∨ 2 ^ f.mantissaBits ≤ n)
    (h : n * (2 : ℚ) ^ q < magnitude f c) : ((n : ℚ) + 1) * (2 : ℚ) ^ q ≤ magnitude f c := by
  have hmult : q = f.etiny ∨ f.etiny ≤ q ∧ (2 : ℚ) ^ (q + f.mantissaBits) ≤ magnitude f c := by
    refine hunit.imp_right fun hn => ⟨hq, ?_⟩
    rw [← two_pow_units]
    refine le_trans (mul_le_mul_of_nonneg_right ?_ (two_zpow_pos q).le) h.le
    exact_mod_cast hn
  obtain ⟨k, hk⟩ := magnitude_multiple f c hmult
  rw [hk] at h ⊢
  exact add_one_units_le h

/-- A candidate below `n` units is at least one unit below, or below the first value of this unit. -/
theorem units_below (hq : f.etiny ≤ q) (h : magnitude f c < n * (2 : ℚ) ^ q) :
    magnitude f c + (2 : ℚ) ^ q ≤ n * (2 : ℚ) ^ q ∨
      (q ≠ f.etiny ∧ magnitude f c < (2 : ℚ) ^ (q + f.mantissaBits)) := by
  by_cases hmult : q = f.etiny ∨ f.etiny ≤ q ∧ (2 : ℚ) ^ (q + f.mantissaBits) ≤ magnitude f c
  · obtain ⟨k, hk⟩ := magnitude_multiple f c hmult
    rw [hk] at h ⊢
    have hle := add_one_units_le h
    exact .inl (by linarith)
  · obtain ⟨hne, hlt⟩ := not_or.1 hmult
    exact .inr ⟨hne, not_le.1 fun hle => hlt ⟨hq, hle⟩⟩

end

section
variable {f : Format} {sig : Nat} {exp : ℤ} {sticky : Bool} {w : Nat}

/-- The significand of R203 is the nearest number of units (`roundSignificand_spec`), so the pattern
with that magnitude is nearest among all patterns: the next one above is a unit away, and so is the next
one below, unless it lies below the power of two where this unit begins, which v has reached. -/
theorem isNearest_of_units (h0 : sig ≠ 0)
    (hmag : magnitude f w = (roundSignificand sig exp (ulpExponent f sig exp) sticky).1 *
      (2 : ℚ) ^ ulpExponent f sig exp)
    (hpar : w % 2 = (roundSignificand sig exp (ulpExponent f sig exp) sticky).1 % 2) :
    IsNearest f (exactValue sig exp) sticky w := by
  have hq := etiny_le_ulpExponent f sig exp
  have hbegin := two_zpow_le_exactValue (f := f) (exp := exp) h0
  have hunit := or_iff_not_imp_left.2 fun hne =>
    two_pow_le_roundSignificand (f := f) (exp := exp) h0 hne sticky
  obtain ⟨hlo, hloTie, hhi, hhiTie, -⟩ :=
    roundSignificand_spec sig exp (ulpExponent f sig exp) sticky (exactValue sig exp) rfl
  generalize (roundSignificand sig exp (ulpExponent f sig exp) sticky).1 = n at *
  generalize ulpExponent f sig exp = q at *
  rw [IsNearest, hmag, hpar]
  constructor
  · intro c _ hlt
    obtain hle | ⟨hne, hbelow⟩ := units_below hq hlt
    · obtain hv | hv := (show magnitude f c + n * (2 : ℚ) ^ q ≤ 2 * exactValue sig exp by
        linarith).lt_or_eq
      · exact .inl hv
      · exact .inr ⟨hv, hloTie (by linarith)⟩
    · have hv := hbegin hne
      refine .inl ?_
      rw [← two_pow_units] at hbelow hv
      obtain hn | hn := le_or_gt ((n : ℚ) * 2 ^ q) ((2 ^ f.mantissaBits : Nat) * 2 ^ q)
      · linarith
      · have hnext := add_one_units_le hn
        linarith
  · intro c _ hlt
    have hle := units_above hq hunit hlt
    obtain hv | hv := (show 2 * exactValue sig exp ≤ magnitude f c + n * (2 : ℚ) ^ q by
      linarith).lt_or_eq
    · exact .inl hv
    · exact .inr ⟨hv, hhiTie (by linarith)⟩

/-- The procedure of R203 answers a nearest pattern, with the flags `EncodesAs` lists; below infinity,
INEXACT says that the value or the sticky bit was lost. -/
theorem roundPack_encodes_nearest (h0 : sig ≠ 0) (hsig : sig < 2 ^ 64) (sign : Bool) :
    ∃ w ix, EncodesAs f sign ix (roundPack f sig exp sticky sign) w ∧
      IsNearest f (exactValue sig exp) sticky w ∧
      (ix = true ∨ w = infinityBits f ↔
        magnitude f w ≠ exactValue sig exp ∨ sticky = true ∨ w = infinityBits f) := by
  rw [roundPack_eq_roundUnclamped h0, roundUnclamped_clampExponent sticky sign h0 hsig]
  obtain ⟨-, -, -, -, hix⟩ :=
    roundSignificand_spec sig exp (ulpExponent f sig exp) sticky (exactValue sig exp) rfl
  obtain ⟨w, hw, hfin, hinf⟩ := encodeRounded_spec f sign
    (roundSignificand sig exp (ulpExponent f sig exp) sticky).2
    (roundSignificand_le_two_pow h0 sticky) (etiny_le_ulpExponent f sig exp)
    (or_iff_not_imp_left.2 fun hne => two_pow_le_roundSignificand h0 hne sticky)
  refine ⟨w, _, hw, ?_⟩
  obtain hle | hgt := le_or_gt (ulpExponent f sig exp + f.mantissaBits) f.bias
  · obtain ⟨hmag, hpar⟩ := hfin hle
    exact ⟨isNearest_of_units h0 hmag hpar, by rw [hix, hmag, or_assoc]⟩
  · obtain rfl := hinf hgt
    have hbias := bias_pos f
    have hne : ulpExponent f sig exp ≠ f.etiny := by
      unfold Format.etiny
      omega
    have hv : (2 : ℚ) ^ ((f.bias : ℤ) + 1) ≤ exactValue sig exp :=
      (zpow_le_zpow_right₀ one_le_two hgt).trans (two_zpow_le_exactValue h0 hne)
    exact ⟨isNearest_infinity hv sticky, by simp⟩

end

/-! ### ROUNDPACK -/

/-- An executed command that drives RES0 and flags. -/
theorem okResponse_of_flagged_res0 (s : State) (x : Nat) (fl : Octet) :
    okResponse s.params.limbs { res0 := zext64 x, rflags := fl } = okWords s x 0 0 fl.toNat := by
  simp [okResponse, okWords, zext64_eq_ofInt]

theorem execRoundpack_of_running {f : Format} {s : State} (hrun : s.halted = false) {x : Nat}
    {fl : Octet} (h : roundPack f s.ports.opa.toNat s.ports.opb.toInt (stickyBit s.ports)
      (roundSign s.ports) = { res0 := zext64 x, rflags := fl }) :
    exec (.roundpack f) s = .next (answered s (okWords s x 0 0 fl.toNat)) := by
  rw [← okResponse_of_flagged_res0, ← h]
  exact complete_of_running hrun _

theorem roundPack_zero (f : Format) (exp : ℤ) (sticky sign : Bool) :
    roundPack f 0 exp sticky sign = { res0 := zext64 (bit sign * 2 ^ (f.totalBits - 1)) } := by
  simp [roundPack, assemble]

/-- Settles O48: R203 answers a nearest pattern (`roundPack_encodes_nearest`). -/
theorem roundpackRoundsToNearestEven : Obligations.RoundpackRoundsToNearestEven := by
  rintro f s _ _ _ hrun rfl rfl rfl
  refine ⟨decode_formatWord (i := .roundpack f) rfl, fun h0 => ?_, fun h0 => ?_⟩
  · rw [← roundSign_eq]
    exact execRoundpack_of_running hrun (by rw [h0]; exact roundPack_zero f _ _ _)
  · have hsig : s.ports.opa.toNat ≠ 0 := fun h => h0 (BitVec.eq_of_toNat_eq h)
    obtain ⟨w, ix, ⟨fl, hres, hle, hinexact, hover, hunder, hlt⟩, ⟨hbelow, habove⟩, hix⟩ :=
      roundPack_encodes_nearest (f := f) (exp := s.ports.opb.toInt) (sticky := stickyBit s.ports)
        hsig s.ports.opa.isLt (roundSign s.ports)
    rw [← roundSign_eq]
    exact ⟨w, fl, execRoundpack_of_running hrun hres, hle, hbelow, habove, hinexact.trans hix, hover,
      hunder, hlt⟩

/-! ### ROUNDPACK after NORMALIZE -/

/-- A value that a pattern has is nearest to no other pattern. -/
theorem eq_of_isNearest_magnitude {f : Format} {w c : Nat} {sticky : Bool} (hc : c ≤ infinityBits f)
    (hw : w ≤ infinityBits f) (h : IsNearest f (magnitude f c) sticky w) : w = c := by
  obtain ⟨hbelow, habove⟩ := h
  obtain hlt | heq | hgt := lt_trichotomy w c
  · have hval := patternOrderIsValueOrder f w c hlt hc
    obtain h | ⟨h, -⟩ := habove c hc hval <;> linarith
  · exact heq
  · have hval := patternOrderIsValueOrder f c w hgt hw
    obtain h | ⟨h, -⟩ := hbelow c hc hval <;> linarith

/-- A pattern without its sign bit. -/
def magnitudeBits (f : Format) (w : Nat) : Nat := expField f w * 2 ^ f.mantissaBits + fracField f w

section
variable {f : Format} {w : Nat}

theorem magnitude_magnitudeBits (f : Format) (w : Nat) :
    magnitude f (magnitudeBits f w) = magnitude f w := by
  rw [magnitudeBits, magnitude_fields f (expField_le_emaxf f w) (fracField_lt f w), magnitude_eq]

theorem sign_add_magnitudeBits (hw : w < 2 ^ f.totalBits) :
    w / 2 ^ (f.totalBits - 1) * 2 ^ (f.totalBits - 1) + magnitudeBits f w = w := by
  rw [magnitudeBits, ← Nat.add_assoc, pattern_eq_fields f w hw]

theorem magnitudeBits_lt_infinityBits (hbe : expField f w ≠ f.emaxf) :
    magnitudeBits f w < infinityBits f :=
  calc magnitudeBits f w < expField f w * 2 ^ f.mantissaBits + 2 ^ f.mantissaBits :=
        Nat.add_lt_add_left (fracField_lt f w) _
    _ = (expField f w + 1) * 2 ^ f.mantissaBits := (Nat.succ_mul _ _).symm
    _ ≤ infinityBits f := Nat.mul_le_mul_right _ (expField_lt_emaxf hbe)

/-- m2 is 0 exactly on a zero. -/
theorem unitCount_eq_zero_iff :
    unitCount f (expField f w) (fracField f w) = 0 ↔ magnitudeBits f w = 0 := by
  have hp : 0 < 2 ^ f.mantissaBits := Nat.two_pow_pos _
  unfold unitCount magnitudeBits
  split_ifs with hbe
  · rw [hbe, Nat.zero_mul, Nat.zero_add]
  · have hpos : 0 < expField f w * 2 ^ f.mantissaBits := Nat.mul_pos (Nat.pos_of_ne_zero hbe) hp
    omega

end

theorem bit_false : bit false = 0 := rfl

/-- With sticky 0, OPC of ROUNDPACK is the sign doubled (R204). -/
theorem doubled_getLsbD_zero (x : Dword) : (x * 2).getLsbD 0 = false := by
  apply bit_injective
  rw [bit_getLsbD, bit_false, BitVec.toNat_mul]
  simp only [BitVec.ofNat_eq_ofNat, BitVec.toNat_ofNat]
  omega

theorem doubled_div_two_mod_two (x : Dword) : (x * 2).toNat / 2 % 2 = x.toNat % 2 := by
  rw [BitVec.toNat_mul]
  simp only [BitVec.ofNat_eq_ofNat, BitVec.toNat_ofNat]
  omega

theorem toNat_eq_zero_of_low_bits_clear {fl : Octet} (hlt : fl.toNat < 8)
    (h0 : ¬ fl.getLsbD 0 = true) (h1 : ¬ fl.getLsbD 1 = true) (h2 : ¬ fl.getLsbD 2 = true) :
    fl.toNat = 0 := by
  have b0 := bit_getLsbD fl 0
  have b1 := bit_getLsbD fl 1
  have b2 := bit_getLsbD fl 2
  rw [Bool.eq_false_iff.2 h0, bit_false] at b0
  rw [Bool.eq_false_iff.2 h1, bit_false] at b1
  rw [Bool.eq_false_iff.2 h2, bit_false] at b2
  omega

/-- ROUNDPACK of a magnitude that a finite pattern has: that pattern is the only nearest one, and no
flag is set. -/
theorem execRoundpack_of_magnitude {f : Format} {t : State} {c sign : Nat} (hrun : t.halted = false)
    (hc : c < infinityBits f)
    (hv : magnitude f c = (t.ports.opa.toNat : ℚ) * (2 : ℚ) ^ t.ports.opb.toInt)
    (hzero : t.ports.opa.toNat = 0 ↔ c = 0) (hsticky : t.ports.opc.getLsbD 0 = false)
    (hsign : t.ports.opc.toNat / 2 % 2 = sign) :
    exec (.roundpack f) t =
      .next (answered t (okWords t (sign * 2 ^ (f.totalBits - 1) + c : Nat) 0 0 0)) := by
  obtain ⟨-, hz, hnz⟩ := roundpackRoundsToNearestEven f t _ _ _ hrun hv hsticky.symm hsign.symm
  by_cases h0 : t.ports.opa = 0
  · rw [hz h0, hzero.1 (by rw [h0]; rfl), Nat.add_zero]
  · obtain ⟨w, fl, hres, hw, hbelow, habove, hinexact, hover, hunder, hlt⟩ := hnz h0
    obtain rfl := eq_of_isNearest_magnitude hc.le hw ⟨hbelow, habove⟩
    have hne : w ≠ 0 := fun h => h0 (BitVec.eq_of_toNat_eq (hzero.2 h))
    have hfl : fl.toNat = 0 := toNat_eq_zero_of_low_bits_clear hlt
      (by rw [hinexact]; simp [hc.ne]) (by rw [hover]; exact hc.ne) (by rw [hunder]; exact hne)
    rw [hres, hfl]

/-- Settles O50: the words of NORMALIZE give ROUNDPACK the magnitude of the pattern itself. -/
theorem roundpackUndoesNormalize : Obligations.RoundpackUndoesNormalize := by
  intro f s t r hs ht hbe hr ha hb hc
  obtain ⟨-, rfl⟩ := finite_of_execNormalize rfl hs hr
  have hw := pattern_lt_two_pow f s.ports.opa.toNat
  generalize s.ports.opa.toNat % 2 ^ f.totalBits = w at *
  have hv : magnitude f (magnitudeBits f w) =
      (t.ports.opa.toNat : ℚ) * (2 : ℚ) ^ t.ports.opb.toInt := by
    rw [ha, hb, normalized_res0_toNat, normalized_res1_toInt f s w (expField_lt_emaxf hbe),
      magnitude_magnitudeBits, magnitude_eq]
  have hsign : t.ports.opc.toNat / 2 % 2 = w / 2 ^ (f.totalBits - 1) := by
    rw [hc, doubled_div_two_mod_two, normalized_res2_toNat f s w hw,
      Nat.mod_eq_of_lt (sign_lt_two hw)]
  rw [execRoundpack_of_magnitude ht (magnitudeBits_lt_infinityBits hbe) hv
    (by rw [ha, normalized_res0_toNat, unitCount_eq_zero_iff])
    (by rw [hc, doubled_getLsbD_zero]) hsign, sign_add_magnitudeBits hw]

end Sys2Proof.Machine
end

section
/-! RDFSR (45_system.md R220) and what a step makes of the command on the ports (60_exceptions.md R242,
R245): a halted instance answers HALTED to every word but RDFSR's, and a running one takes an illegal
word as a fault. -/

namespace Sys2Proof.Machine

/-! ### One command on the ports -/

theorem step_of_command {s : State} {p : Ports} {rest : List Input} (hl : s.params.legal = true)
    (hin : s.inputs = .command p :: rest) : step s = runCommand (s.accept p rest) := by
  rw [step, if_pos hl, hin]

theorem runCommand_of_decode {s : State} {i : Instr} (hd : decode s.ports.cmd = .ok i) :
    runCommand s = exec i s := by
  rw [runCommand, hd]

theorem runCommand_of_illegal {s : State} {c : IllegalCause} (hrun : s.halted = false)
    (hd : decode s.ports.cmd = .error c) :
    runCommand s = .next (faulted s .illegal (Trap.illegal c).detail.toNat) := by
  rw [runCommand, hd]
  exact (whenRunning_of_running hrun).trans (raise_eq _ s)

theorem exec_of_halted {s : State} {i : Instr} (hh : s.halted = true) (hi : i ≠ .rdfsr) :
    exec i s = .next (answered s (noResults s .halted)) := by
  obtain ⟨a, ha, -⟩ := exec_eq_whenRunning i s hi
  rw [ha, whenRunning_of_halted hh, answerHalted_eq]

theorem illegalCommand_of_halted {s : State} (hh : s.halted = true) (c : IllegalCause) :
    illegalCommand c s = .next (answered s (noResults s .halted)) :=
  (whenRunning_of_halted hh).trans (answerHalted_eq s)

/-! ### The word of RDFSR -/

/-- The command word of RDFSR is `encode .rdfsr`, the number 0x00000050. -/
theorem decode_eq_rdfsr_iff (w : Word) : decode w = .ok .rdfsr ↔ w = 0x00000050 :=
  decodeAndEncodeAgree w .rdfsr

theorem runCommand_of_halted {s : State} (hh : s.halted = true) (hw : s.ports.cmd ≠ 0x00000050) :
    runCommand s = .next (answered s (noResults s .halted)) := by
  cases hd : decode s.ports.cmd with
  | ok i =>
    have hi : i ≠ .rdfsr := by
      rintro rfl
      exact hw ((decode_eq_rdfsr_iff _).1 hd)
    rw [runCommand_of_decode hd, exec_of_halted hh hi]
  | error c =>
    rw [runCommand, hd]
    exact illegalCommand_of_halted hh c

/-- R245 steps 3 and 4: under an assigned OPC, a reserved bit that is set is the first failing check,
whatever FMT is. -/
theorem decode_of_reserved_bits {w : Word} (hopc : assignedOpcodes.contains (opcField w) = true)
    (hrsv : rsvField w ≠ 0) : decode w = .error .reservedBits := by
  obtain ⟨row, hrow⟩ := exists_rowOf_of_assigned hopc
  simp only [decode, hrow, if_pos hrsv]

/-- R220: FSR, zero-extended to RES0, whether the instance runs or is halted. -/
theorem exec_rdfsr (s : State) :
    exec .rdfsr s = .next (answered s (okWords s s.fsr.toNat 0 0 0)) := by
  have hres : s.fsr.setWidth 64 = zext64 s.fsr.toNat := (BitVec.ofNat_toNat 64 s.fsr).symm
  rw [exec, execRdfsr, complete_eq, hres, okResponse_of_res0]

/-- Settles O15: the step on a presented command is `runCommand` on the sampled state, and the four
clauses are its answers to RDFSR's word, to the two kinds of illegal word under RDFSR's OPC, and to any
other word while halted. -/
theorem rdfsrReturnsFsr : Obligations.RdfsrReturnsFsr := by
  refine ⟨exec_rdfsr, decode_eq_rdfsr_iff, fun s p rest hl hin => ?_⟩
  rw [step_of_command hl hin]
  refine ⟨fun hw => ?_, fun hrun hw => ?_, fun hrun hopc hrsv => ?_,
    runCommand_of_halted (s := s.accept p rest)⟩
  · exact (runCommand_of_decode ((decode_eq_rdfsr_iff p.cmd).2 hw)).trans (exec_rdfsr _)
  · have hd : decode p.cmd = .error .fmtNotAllowed := by
      rw [hw]
      rfl
    exact runCommand_of_illegal (s := s.accept p rest) (c := .fmtNotAllowed) hrun hd
  · have hassigned : assignedOpcodes.contains (opcField p.cmd) = true := by
      rw [opcField, hopc]
      rfl
    have hd : decode p.cmd = .error .reservedBits := decode_of_reserved_bits hassigned hrsv
    exact runCommand_of_illegal (s := s.accept p rest) (c := .reservedBits) hrun hd

end Sys2Proof.Machine
end

section
/-! Faults and halting (60_exceptions.md R240 to R250): the first failing check of an illegal word is
the fault a running instance takes, and a halted instance answers every command and keeps FSR. -/

namespace Sys2Proof.Machine

/-! ### No event -/

/-- Settles O3: the queue is empty, so `step` takes its first branch. -/
theorem noEventChangesNothing : Obligations.NoEventChangesNothing := by
  intro s hl hin
  rw [step, if_pos hl, hin]

/-! ### Illegal words -/

theorem decode_of_unassigned {w : Word} (hopc : assignedOpcodes.contains (opcField w) = false) :
    decode w = .error .unassignedOpcode := by
  simp only [decode, (rowOf_eq_none _).2 hopc]

/-- R62, R245 step 5: with the first two checks passed, the row of an OPC that is not format-bearing
takes no FMT = 1. -/
theorem decode_of_format_not_allowed {w : Word}
    (hopc : assignedOpcodes.contains (opcField w) = true) (hrsv : rsvField w = 0)
    (hfmt : fmtField w = true) (hplain : formatBearingOpcodes.contains (opcField w) = false) :
    decode w = .error .fmtNotAllowed := by
  obtain ⟨mk | i, hrow⟩ := exists_rowOf_of_assigned hopc
  · have hbearing : formatBearingOpcodes.contains (opcField w) = true :=
      (isBearing_of_rowOf hrow).symm
    exact absurd (hbearing.symm.trans hplain) nofun
  · simp [decode, hrow, hrsv, hfmt]

theorem reservedClear_iff {w : Word} : reservedClear w = true ↔ rsvField w = 0 := beq_iff_eq

theorem formatAllowed_eq_false_iff {w : Word} :
    formatAllowed w = false ↔
      fmtField w = true ∧ formatBearingOpcodes.contains (opcField w) = false := by
  simp only [formatAllowed, fmtField, opcField, Bool.or_eq_false_iff, Bool.not_eq_false']

/-- R243, R245: the step of a running instance on a word that the decoder rejects. -/
theorem step_of_illegal {s : State} {p : Ports} {rest : List Input} {c : IllegalCause}
    (hl : s.params.legal = true) (hin : s.inputs = .command p :: rest) (hrun : s.halted = false)
    (hd : decode p.cmd = .error c) :
    step s = .next (faulted (s.accept p rest) .illegal (Trap.illegal c).detail.toNat) :=
  (step_of_command hl hin).trans (runCommand_of_illegal (s := s.accept p rest) hrun hd)

/-- Settles O12: the three checks of a well-formed word are the decoder's three, in its order. -/
theorem illegalWordsFault : Obligations.IllegalWordsFault := by
  intro s p rest hl hin hrun
  refine ⟨fun hopc => ?_, fun hopc hrsv => ?_, fun hopc hrsv hfmt => ?_⟩
  · exact step_of_illegal (c := .unassignedOpcode) hl hin hrun (decode_of_unassigned hopc)
  · have hne : rsvField p.cmd ≠ 0 := fun h => Bool.eq_false_iff.1 hrsv (reservedClear_iff.2 h)
    exact step_of_illegal (c := .reservedBits) hl hin hrun (decode_of_reserved_bits hopc hne)
  · obtain ⟨hbit, hplain⟩ := formatAllowed_eq_false_iff.1 hfmt
    exact step_of_illegal (c := .fmtNotAllowed) hl hin hrun
      (decode_of_format_not_allowed hopc (reservedClear_iff.1 hrsv) hbit hplain)

/-! ### The halted instance -/

/-- Settles O13: the command is run on the sampled state, which is halted too. -/
theorem haltedInstanceAnswersHalted : Obligations.HaltedInstanceAnswersHalted :=
  fun s p rest hl hin hh hw =>
    (step_of_command hl hin).trans (runCommand_of_halted (s := s.accept p rest) hh hw)

/-- Settles O14: RDFSR alone has no check of HALT. -/
theorem haltedOperationsDoNotExecute : Obligations.HaltedOperationsDoNotExecute :=
  fun _ _ hh hi => exec_of_halted hh hi

/-- R242, R220: a halted instance only drives a response, RDFSR's or HALTED. -/
theorem runCommand_eq_answered_of_halted {s : State} (hh : s.halted = true) :
    ∃ r, runCommand s = .next (answered s r) := by
  by_cases hw : s.ports.cmd = 0x00000050
  · exact ⟨_, (runCommand_of_decode ((decode_eq_rdfsr_iff _).2 hw)).trans (exec_rdfsr s)⟩
  · exact ⟨_, runCommand_of_halted hh hw⟩

/-- Settles O16: the response is all that a command changes on a halted instance. -/
theorem firstFaultIsNeverOverwritten : Obligations.FirstFaultIsNeverOverwritten := by
  intro s t p rest hin hh hstep
  obtain ⟨hl, -⟩ := step_cases hstep
  obtain ⟨r, hr⟩ := runCommand_eq_answered_of_halted (s := s.accept p rest) hh
  rw [step_of_command hl hin, hr] at hstep
  obtain rfl := Host.Outcome.next.inj hstep
  rfl

theorem halted_eq_of_fsr_eq {s t : State} (h : t.fsr = s.fsr) : t.halted = s.halted :=
  congrArg fsrHalt h

/-- Settles O17: idling keeps the state and a command keeps FSR, so a step that clears HALT is a
reset. -/
theorem onlyResetLeavesTheHaltedState : Obligations.OnlyResetLeavesTheHaltedState := by
  intro s t hh hstep hrun
  have hfsr : t.fsr ≠ s.fsr := fun h =>
    Bool.false_ne_true (hrun.symm.trans ((halted_eq_of_fsr_eq h).trans hh))
  obtain ⟨-, ⟨-, rfl⟩ | ⟨rest, hin, rfl⟩ | ⟨p, rest, -, hin, -⟩ | ⟨p, rest, -, hin, -⟩⟩ :=
    step_cases hstep
  · exact absurd rfl hfsr
  · exact ⟨rest, hin, rfl⟩
  · exact absurd (firstFaultIsNeverOverwritten s t p rest hin hh hstep) hfsr
  · exact absurd (firstFaultIsNeverOverwritten s t p rest hin hh hstep) hfsr

/-! ### Responses -/

/-- Settles O19: of the answers of `exec_cases`, a result has STATUS 0 and the other two are
`noResults`. -/
theorem noPartialResults : Obligations.NoPartialResults := by
  intro i s t r ht hr hstatus
  rcases exec_cases i s with ⟨-, -, he⟩ | ⟨r', -, he⟩ | ⟨-, c, he⟩ <;>
    obtain rfl := Host.Outcome.next.inj (he.symm.trans ht) <;>
    obtain rfl := Option.some.inj hr
  · rfl
  · exact absurd rfl hstatus
  · rfl

/-- Settles O20: the body of each of these operations has no precondition to break, so a running
instance completes it, and RDFSR completes always; `hi` rules out the other operations. -/
theorem totalOperationsNeverFault : Obligations.TotalOperationsNeverFault := by
  intro f i s hrun hi
  cases i with
  | decode _ | lzc32 | lzc64 | bitlen32 | bitlen64 | mul32x64 | mul64x64 | ladd | lmuls | lcmp
  | multpow5 | multpow2 | roundpack _ => exact ⟨_, complete_of_running hrun _, rfl⟩
  | rdfsr => exact ⟨_, exec_rdfsr s, rfl⟩
  | normalize _ | lmac10 | lshl | pow5rd _ | pow5invrd _ | mulpow5 _ | mulpow5inv _ | pow5bits
  | log10p2 | log10p5 | pow5factor | pack _ => simp at hi

end Sys2Proof.Machine
end

section
/-! Several instances (60_exceptions.md R258, R259): a step of one leaves the others alone, so a
schedule is a run of each instance by itself. -/

namespace Sys2Proof.Machine

/-- Settles O51: a step of the block replaces one entry of the list of instances. -/
theorem instancesStepIndependently : Obligations.InstancesStepIndependently := by
  intro b c k h
  obtain ⟨s, t, hs, ht, rfl⟩ := stepAt_eq_next.1 h
  obtain ⟨hk, -⟩ := List.getElem?_eq_some_iff.1 hs
  exact ⟨fun j hj => List.getElem?_set_ne hj.symm, List.length_set,
    s, t, hs, ht, List.getElem?_set_self hk⟩

/-- A schedule that completes completes its first step. -/
theorem run_cons_eq_next {b d : Block} {k : Nat} {ks : List Nat} (h : b.run (k :: ks) = .next d) :
    ∃ c, b.stepAt k = .next c ∧ c.run ks = .next d := by
  rw [Block.run] at h
  split at h
  · rename_i c hc
    exact ⟨c, hc, h⟩
  · cases h
  · cases h

theorem run_succ_of_step {M : Host.Core} {s t : M.State} (h : M.step s = .next t) (n : Nat) :
    M.run (n + 1) s = M.run n t := by
  rw [Host.Core.run, h]

/-- Settles O53, by induction over the schedule: its first step is instance k's own, or leaves
instance k as it was. -/
theorem anyInterleavingGivesTheSameInstances :
    Obligations.AnyInterleavingGivesTheSameInstances := by
  intro b d ks k s hrun hs
  induction ks generalizing b s with
  | nil =>
    obtain rfl := Host.Outcome.next.inj hrun
    exact ⟨s, rfl, hs⟩
  | cons j ks ih =>
    obtain ⟨c, hstep, hrest⟩ := run_cons_eq_next hrun
    obtain ⟨hothers, -, u, t, hu, hut, ht⟩ := instancesStepIndependently b c j hstep
    by_cases hjk : j = k
    · subst hjk
      obtain rfl := Option.some.inj (hs.symm.trans hu)
      rw [List.count_cons_self, run_succ_of_step (M := Sys2Proof.core) hut]
      exact ih c t hrest ht
    · rw [List.count_cons_of_ne hjk]
      exact ih c s hrest ((hothers k (Ne.symm hjk)).trans hs)

end Sys2Proof.Machine
end

section
/-! Reset and hazards (70_reset_and_hazards.md R270 to R278): what reset leaves, what a step makes of
the next input, and that the order in which two instances step does not matter. -/

namespace Sys2Proof.Machine

/-! ### Two instances -/

/-- Settles O52: each of the two steps reads and replaces its own entry of the list of instances, so
the later one has the same next state when taken first. -/
theorem instanceStepsCommute : Obligations.InstanceStepsCommute := by
  intro b j k c d hjk hj hk
  obtain ⟨s, s', hs, hs', rfl⟩ := stepAt_eq_next.1 hj
  obtain ⟨u, u', hu, hu', rfl⟩ := stepAt_eq_next.1 hk
  have hub : b.units[k]? = some u := (List.getElem?_set_ne hjk).symm.trans hu
  have hse : (b.units.set k u')[j]? = some s := (List.getElem?_set_ne hjk.symm).trans hs
  have hswap : (b.units.set j s').set k u' = (b.units.set k u').set j s' :=
    List.set_comm s' u' hjk
  exact ⟨{ units := b.units.set k u' }, stepAt_eq_next.2 ⟨u, u', hub, hu', rfl⟩,
    stepAt_eq_next.2 ⟨s, s', hse, hs', congrArg Block.mk hswap⟩⟩

/-! ### Reset -/

/-- Settles O1: only the default parameters need checking. -/
theorem resetLeavesFsrZero : Obligations.ResetLeavesFsrZero :=
  ⟨rfl, rfl, rfl, rfl, default_legal⟩

theorem step_of_reset {s : State} {rest : List Input} (hl : s.params.legal = true)
    (hin : s.inputs = .reset :: rest) : step s = .next (resetInstance s rest) := by
  rw [step, if_pos hl, hin]

/-- Settles O2: the statement writes out the fields of `resetInstance`. -/
theorem resetInputClearsFsr : Obligations.ResetInputClearsFsr :=
  fun _ _ hl hin => step_of_reset hl hin

/-! ### Commands -/

/-- Settles O5: the command is run on the sampled state, where its word decodes to `i`. -/
theorem stepRunsTheDecodedCommand : Obligations.StepRunsTheDecodedCommand :=
  fun s p rest _ hl hin hd =>
    (step_of_command hl hin).trans (runCommand_of_decode (s := s.accept p rest) hd)

/-- Settles O6: of the answers of `exec_cases`, HALTED and a result keep FSR, and a fault writes its
fault word there. -/
theorem everyCommandAnswersOnce : Obligations.EveryCommandAnswersOnce := by
  intro i s
  rcases exec_cases i s with ⟨-, -, h⟩ | ⟨r, -, h⟩ | ⟨-, c, h⟩
  · exact ⟨s.fsr, noResults s .halted, h⟩
  · exact ⟨s.fsr, okResponse s.params.limbs r, h⟩
  · exact ⟨_, noResults s .precondition, h⟩

end Sys2Proof.Machine
end
